-- ==== Sys2Proof/Word.lean ====
section
/-! DEFINITION. The widths of the block's values (00_scope.md R5, R8 to R10). -/

namespace Sys2Proof

/-- One byte lane of the host bus (20_memory.md R65). -/
abbrev Byte := BitVec 8

/-- A bus data word, a command word, or a 32-bit register (10_state.md R23). -/
abbrev Word := BitVec 32

/-- A 16-bit register field: a raw sample or bound (u16), or a speed (s16). -/
abbrev Half := BitVec 16

/-- A binary32 bit pattern (00_scope.md R10, 10_state.md R50). -/
abbrev F32 := BitVec 32

/-- The track offset register's 64 bits (10_state.md R43). -/
abbrev Double := BitVec 64

/-- A channel number 0..7 (00_scope.md R5, `N_CH` = 8). -/
abbrev Chan := Fin 8

end Sys2Proof
end

