-- ==== Sys2Proof/Syntax.lean ====
section
/-! DEFINITION. The ten commands of YTSD-CMD version 1 (00_scope.md R2, 30_encoding.md R81): one
constructor per row of spec/opcode_table.json. -/

namespace Sys2Proof

/-- A command (an *instruction* in the spec's vocabulary, 00_scope.md R12). Only NORM and NORMI carry a
field, the channel CH (30_encoding.md R83). -/
inductive Instr where
  /-- NOP (43_sequencing.md R160). -/
  | nop
  /-- NORM ch (40_normalize_estimate.md R102). -/
  | norm (ch : Chan)
  /-- NORMI ch (40_normalize_estimate.md R103). -/
  | normi (ch : Chan)
  /-- EST (40_normalize_estimate.md R104). -/
  | est
  /-- PID (41_pid.md R126). -/
  | pid
  /-- PIDI (41_pid.md R127). -/
  | pidi
  /-- MAP (42_actuation.md R143). -/
  | map
  /-- MAPI (42_actuation.md R144). -/
  | mapi
  /-- TDELTA (41_pid.md R128). -/
  | tdelta
  /-- LOOP (43_sequencing.md R161). -/
  | loop
  deriving DecidableEq, Repr

end Sys2Proof
end

