-- ==== Sys2Proof/WellFormed.lean ====
section
/-! DEFINITION. Well-formed command words (30_encoding.md R80 to R86). A term of `Instr` has no
ill-formed value (its one field is a channel 0..7), so what can be ill-formed is the raw fields of a
word; each check of R85 is a definition of its own. -/

namespace Sys2Proof

/-- The fields of format C32, reserved ones included (30_encoding.md R80). -/
structure C32 where
  /-- [3:0] OP, the operation. -/
  op : BitVec 4
  /-- [4] S, the source select. -/
  src : BitVec 1
  /-- [7:5], reserved. -/
  low : BitVec 3
  /-- [10:8] CH, the channel number. -/
  ch : BitVec 3
  /-- [31:11], reserved. -/
  high : BitVec 21
  deriving DecidableEq, Repr

/-- Why a command word is illegal, in the order of the checks of 30_encoding.md R85. -/
inductive Reject where
  /-- A reserved bit of [7:5] or [31:11] is set. -/
  | reservedBits
  /-- OP is 0x7 to 0xF (30_encoding.md R86). -/
  | reservedOp
  /-- S = 1 where S must be 0 (30_encoding.md R82). -/
  | sourceNotAllowed
  /-- CH is not 0 where CH must be 0 (30_encoding.md R83). -/
  | channelNotAllowed
  /-- Fewer than four bytes: not a command word at all (30_encoding.md R88). -/
  | truncated
  deriving DecidableEq, Repr

/-- The reserved fields are 0 (30_encoding.md R80). -/
def C32.reservedClear (f : C32) : Bool := f.low == 0 && f.high == 0

/-- OP is assigned (30_encoding.md R86). -/
def C32.opAssigned (f : C32) : Bool := f.op.toNat < 7

/-- S = 1 only where the operation has an operand form (30_encoding.md R82). -/
def C32.sourceAllowed (f : C32) : Bool := f.src == 0 || f.op == 1 || f.op == 3 || f.op == 4

/-- CH is used only by OP = 0x1 (30_encoding.md R83). -/
def C32.channelAllowed (f : C32) : Bool := f.ch == 0 || f.op == 1

/-- The word is legal: all four checks of 30_encoding.md R85. -/
def C32.wellFormed (f : C32) : Bool :=
  f.reservedClear && f.opAssigned && f.sourceAllowed && f.channelAllowed

/-- Every instruction is well-formed: a channel is 0..7 by its type ("A channel outside 0..7 is an
assembly error, not an encoding", 30_encoding.md R89). -/
def Instr.wellFormed : Instr → Bool
  | .norm ch => decide (ch.val < 8)
  | .normi ch => decide (ch.val < 8)
  | .nop => true
  | .est => true
  | .pid => true
  | .pidi => true
  | .map => true
  | .mapi => true
  | .tdelta => true
  | .loop => true

end Sys2Proof
end

