-- ==== Sys2Proof/Decode.lean ====
section
/-! DEFINITION. The command decoder of 30_encoding.md R85, total on every word, and the encoder of R81
and R89. -/

namespace Sys2Proof

/-- The fields of a command word (30_encoding.md R80). -/
def C32.ofWord (w : Word) : C32 where
  op := w.extractLsb' 0 4
  src := w.extractLsb' 4 1
  low := w.extractLsb' 5 3
  ch := w.extractLsb' 8 3
  high := w.extractLsb' 11 21

/-- The word with these fields, the most significant first (30_encoding.md R80). -/
def C32.toWord (f : C32) : Word := f.high ++ f.ch ++ f.low ++ f.src ++ f.op

/-- The row (OP, S) of the opcode map, with channel `ch` (30_encoding.md R81). -/
def decodeRow (op src : Nat) (ch : Chan) : Except Reject Instr :=
  match op, src with
  | 0, 0 => .ok .nop
  | 1, 0 => .ok (.norm ch)
  | 1, 1 => .ok (.normi ch)
  | 2, 0 => .ok .est
  | 3, 0 => .ok .pid
  | 3, 1 => .ok .pidi
  | 4, 0 => .ok .map
  | 4, 1 => .ok .mapi
  | 5, 0 => .ok .tdelta
  | 6, 0 => .ok .loop
  | _, _ => .error .reservedOp

/-- `execute(w)` up to the dispatch (30_encoding.md R85): the checks in the rule's order, then the row. -/
def decode (w : Word) : Except Reject Instr :=
  let f := C32.ofWord w
  if f.high ≠ 0 ∨ f.low ≠ 0 then .error .reservedBits
  else if 7 ≤ f.op.toNat then .error .reservedOp
  else if f.src = 1 ∧ ¬(f.op = 1 ∨ f.op = 3 ∨ f.op = 4) then .error .sourceNotAllowed
  else if f.ch ≠ 0 ∧ f.op ≠ 1 then .error .channelNotAllowed
  else decodeRow f.op.toNat f.src.toNat ⟨f.ch.toNat, f.ch.isLt⟩

/-- One word from its four byte lanes, lane 0 the least significant (20_memory.md R65). -/
def wordOfBytes (b0 b1 b2 b3 : Byte) : Word := b3 ++ b2 ++ b1 ++ b0

/-- Decoding from bytes: one command word is four bytes (30_encoding.md R88); the rest is returned. -/
def decodeBytes : List Byte → Except Reject (Instr × List Byte)
  | b0 :: b1 :: b2 :: b3 :: rest =>
    match decode (wordOfBytes b0 b1 b2 b3) with
    | .ok i => .ok (i, rest)
    | .error r => .error r
  | _ => .error .truncated

/-- The word of an instruction: `match OR (ch << 8)` (30_encoding.md R81, R89). -/
def encode : Instr → Word
  | .nop => 0x00000000#32
  | .norm ch => 0x00000001#32 ||| (BitVec.ofNat 32 ch.val <<< 8)
  | .normi ch => 0x00000011#32 ||| (BitVec.ofNat 32 ch.val <<< 8)
  | .est => 0x00000002#32
  | .pid => 0x00000003#32
  | .pidi => 0x00000013#32
  | .map => 0x00000004#32
  | .mapi => 0x00000014#32
  | .tdelta => 0x00000005#32
  | .loop => 0x00000006#32

/-- The four byte lanes of a word (20_memory.md R65). -/
def bytesOfWord (w : Word) : List Byte :=
  [w.extractLsb' 0 8, w.extractLsb' 8 8, w.extractLsb' 16 8, w.extractLsb' 24 8]

/-- A row of the opcode map: `mask` has a 1 for every bit the decoder checks (30_encoding.md R81). -/
structure OpcodeRow where
  /-- The mnemonic, as spec/opcode_table.json spells it. -/
  mnemonic : String
  /-- The word with CH = 0. -/
  pattern : Word
  /-- The bits the decoder checks. -/
  mask : Word
  deriving DecidableEq, Repr

/-- The row an instruction belongs to (30_encoding.md R81). -/
def Instr.row : Instr → OpcodeRow
  | .nop => ⟨"NOP", 0x00000000#32, 0xFFFFFFFF#32⟩
  | .norm _ => ⟨"NORM", 0x00000001#32, 0xFFFFF8FF#32⟩
  | .normi _ => ⟨"NORMI", 0x00000011#32, 0xFFFFF8FF#32⟩
  | .est => ⟨"EST", 0x00000002#32, 0xFFFFFFFF#32⟩
  | .pid => ⟨"PID", 0x00000003#32, 0xFFFFFFFF#32⟩
  | .pidi => ⟨"PIDI", 0x00000013#32, 0xFFFFFFFF#32⟩
  | .map => ⟨"MAP", 0x00000004#32, 0xFFFFFFFF#32⟩
  | .mapi => ⟨"MAPI", 0x00000014#32, 0xFFFFFFFF#32⟩
  | .tdelta => ⟨"TDELTA", 0x00000005#32, 0xFFFFFFFF#32⟩
  | .loop => ⟨"LOOP", 0x00000006#32, 0xFFFFFFFF#32⟩

/-- The opcode map, row by row (30_encoding.md R81). -/
def opcodeTable : List OpcodeRow :=
  [.nop, .norm 0, .normi 0, .est, .pid, .pidi, .map, .mapi, .tdelta, .loop].map Instr.row

/-- The word matches the row (30_encoding.md R85, last sentence). -/
def OpcodeRow.matchesWord (r : OpcodeRow) (w : Word) : Bool := w &&& r.mask == r.pattern

/-- What the decoder reads from an instruction whose low `nbits` bits are those of `w` and whose other
bits are 0. -/
def decodeTableWord (nbits w : Nat) : Option Instr :=
  match decode (BitVec.ofNat 32 (w % 2 ^ nbits)) with
  | .ok i => some i
  | .error _ => none

end Sys2Proof
end

