-- ==== Sys2Proof/Config.lean ====
section
/-! DEFINITION. What is fixed for the machine: the parameters of 00_scope.md R5 and R6, and the free
values the spec leaves open. An `opaque` constant has no body: no proof can see its value. -/

namespace Sys2Proof

/-- `SCALE` of 00_scope.md R5. -/
def Config.scale : Int := 10000

/-- `NORM_MID` of 00_scope.md R5: the output of a degenerate channel. -/
def Config.normMid : Int := 5000

/-- `DT_FLOOR` of 00_scope.md R5. -/
def Config.dtFloor : F32 := 0x358637BD#32

/-- `MAX_INTEGRAL` of 00_scope.md R5. -/
def Config.maxIntegral : F32 := 0x5F7FFFFF#32

/-- The canonical quiet NaN of 00_scope.md R10. -/
def Config.canonicalNaN : F32 := 0x7FC00000#32

/-- The constraints on the weights (00_scope.md R6): sign symmetry and strictly rising order. That each
lies in [-32768, 32767] is the type. -/
abbrev Config.WeightsOk (w : Vector Half 8) : Prop :=
  (∀ i : Chan, (w[i]).toInt = -(w[i.rev]).toInt) ∧
  (∀ i j : Chan, i < j → (w[i]).toInt < (w[j]).toInt)

/-- The default weights of 00_scope.md R5, which the vectors of 95_test_vectors.md use. -/
def Config.defaultWeights : Vector Half 8 := #v[-7, -5, -3, -1, 1, 3, 5, 7]

/-- The weights the machine is built with, before the check of R6. OPEN in 00_scope.md R5: nothing is
known of them. -/
opaque Config.weightsGiven : Vector Half 8

/-- `WEIGHTS` of 00_scope.md R5: any vector that meets R6, and only such a vector (log 7). -/
def Config.weights : Vector Half 8 :=
  if Config.WeightsOk Config.weightsGiven then Config.weightsGiven else Config.defaultWeights

/-- `BASE` of 00_scope.md R5, OPEN: the bus address of offset 0x00 (20_memory.md R60; log 8). -/
opaque Config.base : Nat

/-- `CMD_LATENCY` of 00_scope.md R5, OPEN: no rule depends on it and a model carries no time
(70_reset_and_hazards.md R215), so nothing in the model reads it (log 9). -/
opaque Config.cmdLatency : Nat

/-- The free value a read of a channel the Sample Source has never written returns: any u16
(10_state.md R46). The first argument is the state's counter, so that each access draws afresh
(log 3). -/
opaque Config.freeSample : Nat → Chan → Half

end Sys2Proof
end

