-- ==== Sys2Proof/Machine/Binary32.lean ====
section
/-! DEFINITION. IEEE 754 binary32 (00_scope.md R10, 41_pid.md R130): round to nearest, ties to even,
subnormals kept, every NaN result canonical, no fused operation. Finite values are computed exactly, as
integers in units of 2^-149 (the smallest subnormal), and rounded once. The IEEE semantics themselves are
general knowledge (PRESUMED, log 11). -/

namespace Sys2Proof.Machine.Binary32

/-- The sign bit [31]. -/
def sign (x : F32) : Bool := x.getLsbD 31

/-- Bits [30:0], exponent and fraction read as one number: it orders the magnitudes. -/
def mag (x : F32) : Nat := x.toNat % 2 ^ 31

/-- The magnitude bits of infinity. -/
def infMag : Nat := 0x7F800000

/-- `isnan(x)`. -/
def isNaN (x : F32) : Bool := infMag < mag x

/-- `isinf(x)`. -/
def isInf (x : F32) : Bool := mag x == infMag

/-- `isfinite(x)`. -/
def isFinite (x : F32) : Bool := mag x < infMag

/-- A pattern from its sign and magnitude bits. -/
def pack (neg : Bool) (m : Nat) : F32 := BitVec.ofNat 32 ((if neg then 2 ^ 31 else 0) + m)

/-- `-x`: the sign bit inverted. -/
def negate (x : F32) : F32 := pack (!sign x) (mag x)

/-- The value of finite magnitude bits, in units of 2^-149. Subnormals and the first normal binade have
unit spacing; each further exponent doubles it. -/
def units (m : Nat) : Nat :=
  if m < 2 ^ 24 then m else (2 ^ 23 + m % 2 ^ 23) * 2 ^ (m / 2 ^ 23 - 1)

/-- The signed value of a finite x, in units of 2^-149. -/
def scaled (x : F32) : Int := if sign x then -(units (mag x) : Int) else (units (mag x) : Int)

/-- The integer nearest `n / d`, ties to even, for d > 0. -/
def nearestEven (n d : Nat) : Nat :=
  let q := n / d
  let r := n % d
  if 2 * r < d then q else if d < 2 * r then q + 1 else q + q % 2

/-- How many low bits of a value of `q` whole units do not fit 24 significant bits. -/
def excessBits (q : Nat) : Nat := if q < 2 ^ 24 then 0 else q.log2 - 23

/-- The magnitude bits of `n / d` units of 2^-149 (d > 0), rounded to nearest, ties to even; a value that
rounds to 2^128 or more gives infinity. -/
def roundMag (n d : Nat) : Nat :=
  let k := excessBits (n / d)
  min (k * 2 ^ 23 + nearestEven n (d * 2 ^ k)) infMag

/-- `fadd(a,b)`. An exact sum of zero is +0 unless both operands are negative zeros. -/
def fadd (a b : F32) : F32 :=
  if isNaN a || isNaN b then Config.canonicalNaN
  else if isInf a then
    if isInf b && sign a != sign b then Config.canonicalNaN else a
  else if isInf b then b
  else
    let z := scaled a + scaled b
    if z = 0 then pack (sign a && sign b) 0 else pack (decide (z < 0)) (roundMag z.natAbs 1)

/-- `fsub(a,b)`: a plus b with its sign inverted. -/
def fsub (a b : F32) : F32 := fadd a (negate b)

/-- `fmul(a,b)`. -/
def fmul (a b : F32) : F32 :=
  let neg := sign a != sign b
  if isNaN a || isNaN b then Config.canonicalNaN
  else if isInf a || isInf b then
    if mag a = 0 ∨ mag b = 0 then Config.canonicalNaN else pack neg infMag
  else pack neg (roundMag (units (mag a) * units (mag b)) (2 ^ 149))

/-- `fdiv(a,b)`. -/
def fdiv (a b : F32) : F32 :=
  let neg := sign a != sign b
  if isNaN a || isNaN b then Config.canonicalNaN
  else if isInf a then if isInf b then Config.canonicalNaN else pack neg infMag
  else if isInf b then pack neg 0
  else if mag b = 0 then if mag a = 0 then Config.canonicalNaN else pack neg infMag
  else pack neg (roundMag (units (mag a) * 2 ^ 149) (units (mag b)))

/-- `i2f(n)`. -/
def i2f (n : Int) : F32 := pack (decide (n < 0)) (roundMag (n.natAbs * 2 ^ 149) 1)

/-- `f2i_trunc(x)`, for finite x (the only argument a command gives it, log 11): rounded toward zero. -/
def f2iTrunc (x : F32) : Int :=
  let n : Int := (units (mag x) / 2 ^ 149 : Nat)
  if sign x then -n else n

/-- The order of the values that are not NaN, infinities included; both zeros give 0. -/
def orderKey (x : F32) : Int := if sign x then -(mag x : Int) else (mag x : Int)

/-- `fgt(a,b)`: an ordered comparison, false when either operand is NaN. -/
def fgt (a b : F32) : Bool := !isNaN a && !isNaN b && decide (orderKey b < orderKey a)

/-- `flt(a,b)`: an ordered comparison, false when either operand is NaN. -/
def flt (a b : F32) : Bool := !isNaN a && !isNaN b && decide (orderKey a < orderKey b)

/-- The binary32 value nearest `±num / den`, for den > 0 (the `f32(x)` of 30_encoding.md R90). -/
def ofRatio (neg : Bool) (num den : Nat) : F32 := pack neg (roundMag (num * 2 ^ 149) den)

end Sys2Proof.Machine.Binary32
end

