-- ==== Sys2Proof/Machine/State.lean ====
section
/-! DEFINITION. The block's state (10_state.md R20), the inputs that reach it, the reasons a step can stop,
and the state after reset (70_reset_and_hazards.md R200). -/

namespace Sys2Proof.Machine

/-- One channel's calibration bounds (10_state.md R33). -/
structure Cal where
  /-- MIN = CAL[i][15:0]. -/
  min : Half
  /-- MAX = CAL[i][31:16]. -/
  max : Half
  deriving DecidableEq, Repr

/-- One channel of the sample port (10_state.md R46). -/
inductive SampleCell where
  /-- The Sample Source has not written the channel yet: its value is unspecified (log 3). -/
  | neverWritten
  /-- The value the Sample Source last wrote. -/
  | holds (v : Half)
  deriving DecidableEq, Repr

/-- One write of the Sample Source to its port (20_memory.md R66). -/
structure SampleWrite where
  /-- The channel. -/
  ch : Chan
  /-- The new raw value. -/
  value : Half
  deriving DecidableEq, Repr

/-- What the Sample Source does while one host access runs: the command window of 00_scope.md R14 and
20_memory.md R67 (DESIGN CHOICE, log 2). -/
structure Window where
  /-- Its writes, oldest first. -/
  writes : List SampleWrite
  /-- Which of the values channel i can show SampleRead(i) returns; every number chooses one. -/
  draws : Vector Nat 8
  deriving DecidableEq, Repr

/-- No Sample Source write falls in the window. -/
def Window.quiet : Window := ⟨[], Vector.replicate 8 0⟩

/-- What a host access does (20_memory.md R62, R63). -/
inductive AccessKind where
  | read
  | write (v : Word)
  deriving DecidableEq, Repr

/-- A host bus access: its kind, its byte offset from BASE, its width in bytes (20_memory.md R60, R61). -/
structure Access where
  kind : AccessKind
  off : Nat
  bytes : Nat
  deriving DecidableEq, Repr

/-- An input that reaches the block from outside (00_scope.md R15, 70_reset_and_hazards.md R200). -/
inductive Input where
  /-- A host access, with what the Sample Source does meanwhile. -/
  | access (a : Access) (w : Window)
  /-- A Sample Source write between two host accesses (20_memory.md R68). -/
  | sampleWrite (w : SampleWrite)
  /-- The reset input becomes asserted. -/
  | resetAssert
  /-- The reset input is released. -/
  | resetRelease
  deriving DecidableEq, Repr

/-- What the bus last answered the host. No step reads it (DESIGN CHOICE, log 10). -/
inductive Response where
  /-- Nothing yet. -/
  | nothing
  /-- The data of a read (20_memory.md R62). -/
  | data (v : Word)
  /-- A write is done (20_memory.md R63). -/
  | done
  /-- Reset was asserted: the block accepted no access (70_reset_and_hazards.md R200, log 5). -/
  | notAccepted
  deriving DecidableEq, Repr

/-- Everything the block holds, and the inputs still to come. The field order is 10_state.md R20's. -/
structure State where
  /-- CMD (10_state.md R24). -/
  cmd : Word
  /-- STATUS[3:0]; [31:4] read 0 (10_state.md R25). -/
  status : BitVec 4
  /-- OPA[15:0]; [31:16] read 0 (10_state.md R26). -/
  opa : Half
  /-- ERR_IN (10_state.md R27). -/
  errIn : F32
  /-- DT_IN (10_state.md R28). -/
  dtIn : F32
  /-- CORR_IN (10_state.md R29). -/
  corrIn : F32
  /-- TICK_IN (10_state.md R30). -/
  tickIn : Word
  /-- KP (10_state.md R35). -/
  kp : F32
  /-- KI (10_state.md R35). -/
  ki : F32
  /-- KD (10_state.md R35). -/
  kd : F32
  /-- NEUTRAL_SPEED[15:0], an s16 (10_state.md R36). -/
  neutralSpeed : Half
  /-- DUTY_MAX[15:0], an s16 (10_state.md R37). -/
  dutyMax : Half
  /-- CAL[0..7] (10_state.md R33). -/
  cal : Vector Cal 8
  /-- INTEGRAL (10_state.md R38). -/
  integral : F32
  /-- PREV_ERROR (10_state.md R39). -/
  prevError : F32
  /-- TICK_PREV (10_state.md R31). -/
  tickPrev : Word
  /-- ELAPSED (10_state.md R32). -/
  elapsed : Word
  /-- CORRECTION (10_state.md R40). -/
  correction : F32
  /-- NORM_OUT (10_state.md R41). -/
  normOut : Word
  /-- NORM[0..7] (10_state.md R42). -/
  norm : Vector Word 8
  /-- OFFSET, an s64 (10_state.md R43). -/
  offset : Double
  /-- DUTY_L, an s32 (10_state.md R44). -/
  dutyL : Word
  /-- DUTY_R, an s32 (10_state.md R44). -/
  dutyR : Word
  /-- PWM_L (10_state.md R45). -/
  pwmL : Word
  /-- PWM_R (10_state.md R45). -/
  pwmR : Word
  /-- SAMPLE[0..7], which the Sample Source drives (10_state.md R46). -/
  sample : Vector SampleCell 8
  /-- The reset input is asserted (70_reset_and_hazards.md R200). -/
  inReset : Bool
  /-- The window of the access now running; the quiet window between accesses (log 2). -/
  window : Window
  /-- What the bus last answered (log 10). -/
  response : Response
  /-- The inputs still to come, oldest first (log 1). -/
  pending : List Input
  /-- The counter that makes the free values of unwritten channels fresh (log 3). -/
  freeCount : Nat
  deriving DecidableEq, Repr

/-- Why a step stops. -/
inductive Fault where
  /-- A host access that is not 32 bits wide, not at a multiple of 4, or beyond 0xFC: raised by the bus
  (`hostAccess`), never by a command. "A model treats such an access as a fault of the host program"
  (20_memory.md R64). Safe: the block answers a bus error, changes nothing and would go on (log 4). -/
  | busError (off bytes : Nat)
  deriving DecidableEq, Repr

/-- Why an instruction has no meaning. -/
inductive Refusal where
  /-- The instruction of this mnemonic is not modelled: raised by an arm of `exec` that rejects it by name.
  Safe. No arm does. -/
  | notModelled (mnemonic : String)
  deriving DecidableEq, Repr

/-- The machine right after reset (70_reset_and_hazards.md R200): every register 0 or +0.0. The sample
port is not reset (R201): at power-on no channel has been written (log 3). No input is waiting (log 1). -/
def State.reset : State where
  cmd := 0
  status := 0
  opa := 0
  errIn := 0
  dtIn := 0
  corrIn := 0
  tickIn := 0
  kp := 0
  ki := 0
  kd := 0
  neutralSpeed := 0
  dutyMax := 0
  cal := Vector.replicate 8 ⟨0, 0⟩
  integral := 0
  prevError := 0
  tickPrev := 0
  elapsed := 0
  correction := 0
  normOut := 0
  norm := Vector.replicate 8 0
  offset := 0
  dutyL := 0
  dutyR := 0
  pwmL := 0
  pwmR := 0
  sample := Vector.replicate 8 .neverWritten
  inReset := false
  window := Window.quiet
  response := .nothing
  pending := []
  freeCount := 0

end Sys2Proof.Machine
end

