-- ==== Sys2Proof/Machine/Flags.lean ====
section
/-! DEFINITION. The four sticky STATUS flags (10_state.md R25, R48; 60_exceptions.md R170, R171). The block
has no condition codes and takes no traps: raising a flag is the only thing a command does when something
is wrong, so there is no trap entry and no trap return to model (60_exceptions.md R176, R177). -/

namespace Sys2Proof.Machine

/-- A STATUS flag (10_state.md R25). -/
inductive Flag where
  | illcmd | cfgerr | nonfinite | degen
  deriving DecidableEq, Repr

/-- The flag's bit of STATUS (10_state.md R25). -/
def Flag.bit : Flag → Nat
  | .illcmd => 0
  | .cfgerr => 1
  | .nonfinite => 2
  | .degen => 3

/-- The flag alone, as STATUS[3:0]. -/
def Flag.mask (f : Flag) : BitVec 4 := 1#4 <<< f.bit

/-- Whether the flag is set. -/
def State.flag (s : State) (f : Flag) : Bool := s.status.getLsbD f.bit

/-- `raise F` (00_scope.md R11, 60_exceptions.md R171): set the flag, change nothing else. -/
def State.raise (s : State) (f : Flag) : State := { s with status := s.status ||| f.mask }

/-- Raise the flag if the condition holds; every field but STATUS is untouched either way. -/
def State.raiseIf (s : State) (c : Bool) (f : Flag) : State :=
  { s with status := if c then s.status ||| f.mask else s.status }

/-- A host write of `v` to STATUS: STATUS[3:0] <- STATUS[3:0] AND NOT v[3:0] (10_state.md R25). -/
def State.clearFlags (s : State) (v : Word) : State :=
  { s with status := s.status &&& ~~~(v.extractLsb' 0 4) }

end Sys2Proof.Machine
end

