-- ==== Sys2Proof/Machine/RegisterMap.lean ====
section
/-! DEFINITION. The register map (10_state.md R23): the 64 words of the window, their offsets and access
codes. -/

namespace Sys2Proof.Machine

/-- A register of the window, by the name 10_state.md R23 gives it. -/
inductive Reg where
  | cmd | status | opa | errIn | dtIn | corrIn | tickIn | tickPrev | elapsed
  | kp | ki | kd | neutralSpeed | dutyMax | integral | prevError | correction
  | normOut | offsetLo | offsetHi | dutyL | dutyR | pwmL | pwmR
  | cal (i : Chan) | range (i : Chan) | norm (i : Chan) | sample (i : Chan)
  /-- The reserved words 0xE0 to 0xFC (10_state.md R47). -/
  | reserved (i : Chan)
  deriving DecidableEq, Repr

/-- The access codes of 10_state.md R23. -/
inductive AccessCode where
  /-- The host reads and writes it. -/
  | rw
  /-- The host reads it; a host write is ignored. -/
  | ro
  /-- A host write of 1 to a bit clears that bit. -/
  | w1c
  /-- A host write issues a command. -/
  | cmdw
  /-- Reads 0, writes are ignored (10_state.md R47). -/
  | reserved
  deriving DecidableEq, Repr

/-- The byte offset from BASE (10_state.md R23). -/
def Reg.offset : Reg → Nat
  | .cmd => 0x00
  | .status => 0x04
  | .opa => 0x08
  | .errIn => 0x0C
  | .dtIn => 0x10
  | .corrIn => 0x14
  | .tickIn => 0x18
  | .tickPrev => 0x1C
  | .elapsed => 0x20
  | .kp => 0x24
  | .ki => 0x28
  | .kd => 0x2C
  | .neutralSpeed => 0x30
  | .dutyMax => 0x34
  | .integral => 0x38
  | .prevError => 0x3C
  | .correction => 0x40
  | .normOut => 0x44
  | .offsetLo => 0x48
  | .offsetHi => 0x4C
  | .dutyL => 0x50
  | .dutyR => 0x54
  | .pwmL => 0x58
  | .pwmR => 0x5C
  | .cal i => 0x60 + 4 * i.val
  | .range i => 0x80 + 4 * i.val
  | .norm i => 0xA0 + 4 * i.val
  | .sample i => 0xC0 + 4 * i.val
  | .reserved i => 0xE0 + 4 * i.val

/-- The access code (10_state.md R23). -/
def Reg.access : Reg → AccessCode
  | .cmd => .cmdw
  | .status => .w1c
  | .opa | .errIn | .dtIn | .corrIn | .tickIn => .rw
  | .kp | .ki | .kd | .neutralSpeed | .dutyMax => .rw
  | .cal _ => .rw
  | .tickPrev | .elapsed | .integral | .prevError | .correction => .ro
  | .normOut | .offsetLo | .offsetHi | .dutyL | .dutyR | .pwmL | .pwmR => .ro
  | .range _ | .norm _ | .sample _ => .ro
  | .reserved _ => .reserved

/-- The register of word `k` of the window, for k < 64. -/
def Reg.ofIndex (k : Nat) : Reg :=
  match k with
  | 0 => .cmd
  | 1 => .status
  | 2 => .opa
  | 3 => .errIn
  | 4 => .dtIn
  | 5 => .corrIn
  | 6 => .tickIn
  | 7 => .tickPrev
  | 8 => .elapsed
  | 9 => .kp
  | 10 => .ki
  | 11 => .kd
  | 12 => .neutralSpeed
  | 13 => .dutyMax
  | 14 => .integral
  | 15 => .prevError
  | 16 => .correction
  | 17 => .normOut
  | 18 => .offsetLo
  | 19 => .offsetHi
  | 20 => .dutyL
  | 21 => .dutyR
  | 22 => .pwmL
  | 23 => .pwmR
  | k =>
    let i : Chan := Fin.ofNat 8 k
    if k < 32 then .cal i
    else if k < 40 then .range i
    else if k < 48 then .norm i
    else if k < 56 then .sample i
    else .reserved i

/-- The register at an accepted offset; none where 20_memory.md R62 and R63 send the access to R64. -/
def Reg.ofOffset (off : Nat) : Option Reg :=
  if off % 4 = 0 ∧ off ≤ 0xFC then some (Reg.ofIndex (off / 4)) else none

end Sys2Proof.Machine
end

