-- ==== Sys2Proof/Machine/Ops.lean ====
section
/-! DEFINITION. The operations on registers, the sample port and the reset input that every command and
host access goes through. The block takes no traps (60_exceptions.md R176): the shared operation of an
error is `State.raise` in Flags.lean. -/

namespace Sys2Proof.Machine

/-- `trunc_div(a, b)`: rounded toward zero (00_scope.md R9). -/
def truncDiv (a b : Int) : Int := a.tdiv b

/-- RANGE[i] = zext_32(MAX) - zext_32(MIN), exact (10_state.md R34). -/
def Cal.range (c : Cal) : Int := (c.max.toNat : Int) - (c.min.toNat : Int)

/-- A degenerate channel: RANGE ≤ 0 (00_scope.md R14, 40_normalize_estimate.md R101). -/
def Cal.degenerate (c : Cal) : Bool := decide (c.range ≤ 0)

/-- The bounds one host write of CAL[i] stores (10_state.md R33). -/
def Cal.ofWord (v : Word) : Cal := ⟨v.extractLsb' 0 16, v.extractLsb' 16 16⟩

/-- CAL[i] as the host reads it: MAX in [31:16], MIN in [15:0] (10_state.md R33). -/
def Cal.toWord (c : Cal) : Word := c.max ++ c.min

/-- The value channel i of the port holds; a free value where nothing was written (10_state.md R46). -/
def State.heldSample (s : State) (i : Chan) : Half :=
  match s.sample[i] with
  | .holds v => v
  | .neverWritten => Config.freeSample s.freeCount i

/-- The values SampleRead(i) may return in the window now open: the value held when it opened, then the
value of every write to the channel in it (20_memory.md R67). -/
def State.sampleValues (s : State) (i : Chan) : List Half :=
  s.heldSample i :: (s.window.writes.filter (fun w => w.ch == i)).map SampleWrite.value

/-- `SampleRead(i)` (20_memory.md R67): one of `sampleValues`, chosen by channel i's own draw. -/
def State.sampleRead (s : State) (i : Chan) : Half :=
  let vs := s.sampleValues i
  vs.getD (s.window.draws[i] % vs.length) (s.heldSample i)

/-- The port after one Sample Source write (20_memory.md R66). -/
def writePort (p : Vector SampleCell 8) (w : SampleWrite) : Vector SampleCell 8 :=
  p.set w.ch.val (.holds w.value) w.ch.isLt

/-- Sample Source writes, oldest first. -/
def State.applySamples (s : State) (ws : List SampleWrite) : State :=
  { s with sample := ws.foldl writePort s.sample }

/-- A host access begins: the window opens. -/
def State.openWindow (s : State) (w : Window) : State := { s with window := w }

/-- A host access ends: the Sample Source's writes of the window stand in the port, the window closes, and
later reads of unwritten channels draw afresh. -/
def State.closeWindow (s : State) : State :=
  { s with
    sample := s.window.writes.foldl writePort s.sample
    window := Window.quiet
    freeCount := s.freeCount + 1 }

/-- The bus answers the host. -/
def State.answer (s : State) (r : Response) : State := { s with response := r }

/-- The host's view of a register, the Format column of 10_state.md R23 (`view(off)` of
20_memory.md R62); reserved bits and words read 0 (10_state.md R47). -/
def State.readReg (s : State) : Reg → Word
  | .cmd => s.cmd
  | .status => s.status.setWidth 32
  | .opa => s.opa.setWidth 32
  | .errIn => s.errIn
  | .dtIn => s.dtIn
  | .corrIn => s.corrIn
  | .tickIn => s.tickIn
  | .tickPrev => s.tickPrev
  | .elapsed => s.elapsed
  | .kp => s.kp
  | .ki => s.ki
  | .kd => s.kd
  | .neutralSpeed => s.neutralSpeed.signExtend 32
  | .dutyMax => s.dutyMax.signExtend 32
  | .integral => s.integral
  | .prevError => s.prevError
  | .correction => s.correction
  | .normOut => s.normOut
  | .offsetLo => s.offset.extractLsb' 0 32
  | .offsetHi => s.offset.extractLsb' 32 32
  | .dutyL => s.dutyL
  | .dutyR => s.dutyR
  | .pwmL => s.pwmL
  | .pwmR => s.pwmR
  | .cal i => s.cal[i].toWord
  | .range i => BitVec.ofInt 32 s.cal[i].range
  | .norm i => s.norm[i]
  | .sample i => (s.sampleRead i).setWidth 32
  | .reserved _ => 0

/-- A host write of `v` to a register other than CMD (20_memory.md R63): an RW register stores its
implemented bits, STATUS clears bits, an RO or reserved register ignores the write. CMD's own write is
`memWrite` in Bus.lean, since it runs a command. -/
def State.writeReg (s : State) (r : Reg) (v : Word) : State :=
  match r with
  | .status => s.clearFlags v
  | .opa => { s with opa := v.extractLsb' 0 16 }
  | .errIn => { s with errIn := v }
  | .dtIn => { s with dtIn := v }
  | .corrIn => { s with corrIn := v }
  | .tickIn => { s with tickIn := v }
  | .kp => { s with kp := v }
  | .ki => { s with ki := v }
  | .kd => { s with kd := v }
  | .neutralSpeed => { s with neutralSpeed := v.extractLsb' 0 16 }
  | .dutyMax => { s with dutyMax := v.extractLsb' 0 16 }
  | .cal i => { s with cal := s.cal.set i.val (Cal.ofWord v) i.isLt }
  | .cmd | .tickPrev | .elapsed | .integral | .prevError | .correction => s
  | .normOut | .offsetLo | .offsetHi | .dutyL | .dutyR | .pwmL | .pwmR => s
  | .range _ | .norm _ | .sample _ | .reserved _ => s

/-- The block reset, as it stands when the reset input is released (70_reset_and_hazards.md R200): every
register at its reset value; the sample port keeps what it holds (R201). The inputs still to come and the
free counter are not the block's. -/
def State.blockReset (s : State) : State :=
  { State.reset with sample := s.sample, pending := s.pending, freeCount := s.freeCount }

/-- What the motor output port shows: PWM_L and PWM_R, continuously (20_memory.md R78). -/
def State.motorPort (s : State) : Word × Word := (s.pwmL, s.pwmR)

end Sys2Proof.Machine
end

