-- ==== Sys2Proof/Machine/Operands.lean ====
section
/-! DEFINITION. Where each command takes its operand from: the source select S of 30_encoding.md R82, and
the registers of R84. No command carries an immediate. -/

namespace Sys2Proof.Machine

/-- NORM, S = 0: the raw value from the sample port. -/
def State.rawLive (s : State) (i : Chan) : Half := s.sampleRead i

/-- NORMI, S = 1: the raw value from OPA[15:0]. -/
def State.rawOperand (s : State) : Half := s.opa

/-- PID, S = 0: the error is i2f(OFFSET). -/
def State.errorLive (s : State) : F32 := Binary32.i2f s.offset.toInt

/-- PIDI, S = 1: the error is ERR_IN. -/
def State.errorOperand (s : State) : F32 := s.errIn

/-- MAP, S = 0: the correction is CORRECTION. -/
def State.correctionLive (s : State) : F32 := s.correction

/-- MAPI, S = 1: the correction is CORR_IN. -/
def State.correctionOperand (s : State) : F32 := s.corrIn

end Sys2Proof.Machine
end

