-- ==== Sys2Proof/Machine/Actuation.lean ====
section
/-! DEFINITION. The actuation mapper (42_actuation.md): MAP, MAPI. -/

namespace Sys2Proof.Machine

open Binary32

/-- The pair is legal: −DUTY_MAX ≤ NEUTRAL_SPEED ≤ DUTY_MAX, as s16 integers (42_actuation.md R140). -/
def State.legalPair (s : State) : Bool :=
  decide (-s.dutyMax.toInt ≤ s.neutralSpeed.toInt) && decide (s.neutralSpeed.toInt ≤ s.dutyMax.toInt)

/-- `clamp_f` (42_actuation.md R141). -/
def clampF (v lo hi : F32) : F32 :=
  if isNaN v then lo else if flt v lo then lo else if fgt v hi then hi else v

/-- `lines(d)`: line A, the positive magnitude, in [15:0]; line B, the negative one, in [31:16]
(42_actuation.md R147). -/
def lines (d : Int) : Word :=
  let a : Int := if 0 < d then d else 0
  let b : Int := if d < 0 then -d else 0
  BitVec.ofInt 16 b ++ BitVec.ofInt 16 a

/-- The left duty of `map_duty(c)` (42_actuation.md R142). -/
def State.leftDuty (s : State) (c : F32) : Int :=
  let n := i2f s.neutralSpeed.toInt
  f2iTrunc (clampF (fadd n c) n (i2f s.dutyMax.toInt))

/-- The right duty of `map_duty(c)` (42_actuation.md R142). -/
def State.rightDuty (s : State) (c : F32) : Int :=
  let n := i2f s.neutralSpeed.toInt
  f2iTrunc (clampF (fsub n c) n (i2f s.dutyMax.toInt))

/-- `map_duty(c)` (42_actuation.md R142): an illegal pair raises CFGERR and writes nothing else. -/
def State.mapDuty (s : State) (c : F32) : State :=
  if s.legalPair then
    { s.raiseIf (isNaN c) .nonfinite with
      dutyL := BitVec.ofInt 32 (s.leftDuty c)
      dutyR := BitVec.ofInt 32 (s.rightDuty c)
      pwmL := lines (s.leftDuty c)
      pwmR := lines (s.rightDuty c) }
  else s.raise .cfgerr

/-- MAP (42_actuation.md R143). -/
def execMap (s : State) : Host.Outcome State Fault Refusal :=
  .next (s.mapDuty s.correctionLive)

/-- MAPI (42_actuation.md R144). -/
def execMapi (s : State) : Host.Outcome State Fault Refusal :=
  .next (s.mapDuty s.correctionOperand)

end Sys2Proof.Machine
end

