-- ==== Sys2Proof/Machine/Normalize.lean ====
section
/-! DEFINITION. The normalizer and the position estimator (40_normalize_estimate.md): NORM, NORMI, EST. -/

namespace Sys2Proof.Machine

/-- The value of `normalize(raw, i)` for a channel with these bounds (40_normalize_estimate.md R100,
R101); every step is exact. -/
def normalizeValue (c : Cal) (raw : Half) : Int :=
  if c.degenerate then Config.normMid
  else truncDiv (((raw.toNat : Int) - (c.min.toNat : Int)) * Config.scale) c.range

/-- NORM_OUT <- normalize(raw, i), with the flag (40_normalize_estimate.md R102, R103). -/
def State.normalizeTo (s : State) (i : Chan) (raw : Half) : State :=
  { s.raiseIf s.cal[i].degenerate .degen with normOut := BitVec.ofInt 32 (normalizeValue s.cal[i] raw) }

/-- n_i of EST: channel i's own SampleRead, normalized (40_normalize_estimate.md R104). -/
def State.liveNorm (s : State) (i : Chan) : Int := normalizeValue s.cal[i] (s.sampleRead i)

/-- acc = Σ WEIGHTS[i] * n_i, exact (40_normalize_estimate.md R104, R105). -/
def weightedSum (w : Vector Half 8) (n : Chan → Int) : Int :=
  w[0].toInt * n 0 + w[1].toInt * n 1 + w[2].toInt * n 2 + w[3].toInt * n 3 +
  w[4].toInt * n 4 + w[5].toInt * n 5 + w[6].toInt * n 6 + w[7].toInt * n 7

/-- Some channel is degenerate. -/
def State.anyDegenerate (s : State) : Bool := s.cal.any Cal.degenerate

/-- The EST body (40_normalize_estimate.md R104), for the weights `w`. -/
def State.estimate (w : Vector Half 8) (s : State) : State :=
  { s.raiseIf s.anyDegenerate .degen with
    norm := Vector.ofFn fun i => BitVec.ofInt 32 (s.liveNorm i)
    offset := BitVec.ofInt 64 (truncDiv (weightedSum w s.liveNorm) 8) }

/-- NORM ch (40_normalize_estimate.md R102). -/
def execNorm (ch : Chan) (s : State) : Host.Outcome State Fault Refusal :=
  .next (s.normalizeTo ch (s.rawLive ch))

/-- NORMI ch (40_normalize_estimate.md R103). -/
def execNormi (ch : Chan) (s : State) : Host.Outcome State Fault Refusal :=
  .next (s.normalizeTo ch s.rawOperand)

/-- EST (40_normalize_estimate.md R104). -/
def execEst (s : State) : Host.Outcome State Fault Refusal :=
  .next (s.estimate Config.weights)

end Sys2Proof.Machine
end

