-- ==== Sys2Proof/Machine/Pid.lean ====
section
/-! DEFINITION. The steering controller and the time delta (41_pid.md): PID, PIDI, TDELTA. -/

namespace Sys2Proof.Machine

open Binary32

/-- `clamp_dt` (41_pid.md R121). -/
def clampDt (dtr : F32) : F32 := if fgt dtr Config.dtFloor then dtr else Config.dtFloor

/-- The integral update and its one-sided clamp: I1 of 41_pid.md R122, for the clamped delta `dt`. -/
def nextIntegral (integral e dt : F32) : F32 :=
  let sum := fadd integral (fmul e dt)
  if fgt sum Config.maxIntegral then Config.maxIntegral else sum

/-- The derivative d of 41_pid.md R123, for the clamped delta `dt`. -/
def derivative (prevError e dt : F32) : F32 := fdiv (fsub e prevError) dt

/-- The correction c of 41_pid.md R124. -/
def correctionOf (kp ki kd e i1 d : F32) : F32 :=
  fadd (fadd (fmul kp e) (fmul ki i1)) (fmul kd d)

/-- `pid_step(e, dtr)` (41_pid.md R120, R125): the three writes together, then the flag. -/
def State.pidStep (s : State) (e dtr : F32) : State :=
  let dt := clampDt dtr
  let i1 := nextIntegral s.integral e dt
  let d := derivative s.prevError e dt
  let c := correctionOf s.kp s.ki s.kd e i1 d
  { s.raiseIf (!isFinite i1 || !isFinite d || !isFinite c) .nonfinite with
    integral := i1, prevError := e, correction := c }

/-- PID (41_pid.md R126). -/
def execPid (s : State) : Host.Outcome State Fault Refusal :=
  .next (s.pidStep s.errorLive s.dtIn)

/-- PIDI (41_pid.md R127). -/
def execPidi (s : State) : Host.Outcome State Fault Refusal :=
  .next (s.pidStep s.errorOperand s.dtIn)

/-- TDELTA (41_pid.md R128): the difference modulo 2^32. -/
def execTdelta (s : State) : Host.Outcome State Fault Refusal :=
  .next { s with elapsed := s.tickIn - s.tickPrev, tickPrev := s.tickIn }

end Sys2Proof.Machine
end

