-- ==== Sys2Proof/Machine/Sequencing.lean ====
section
/-! DEFINITION. The sequencing commands (43_sequencing.md): NOP, LOOP. -/

namespace Sys2Proof.Machine

/-- NOP (43_sequencing.md R160): only the CMD write that issued it takes place. -/
def execNop (s : State) : Host.Outcome State Fault Refusal := .next s

/-- One control iteration (43_sequencing.md R161), for the weights `w`: the EST body, the controller step
on the OFFSET just written, the map of the CORRECTION just written. -/
def State.iteration (w : Vector Half 8) (s : State) : State :=
  let s1 := s.estimate w
  let s2 := s1.pidStep s1.errorLive s1.dtIn
  s2.mapDuty s2.correctionLive

/-- LOOP (43_sequencing.md R161). -/
def execLoop (s : State) : Host.Outcome State Fault Refusal :=
  .next (s.iteration Config.weights)

end Sys2Proof.Machine
end

