-- ==== Sys2Proof/Machine/Dispatch.lean ====
section
/-! DEFINITION. One arm per command (30_encoding.md R81, R85): each a direct call of its meaning. -/

namespace Sys2Proof.Machine

def exec (i : Instr) (s : State) : Host.Outcome State Fault Refusal :=
  match i with
  | .nop => Sys2Proof.Machine.execNop s
  | .norm ch => Sys2Proof.Machine.execNorm ch s
  | .normi ch => Sys2Proof.Machine.execNormi ch s
  | .est => Sys2Proof.Machine.execEst s
  | .pid => Sys2Proof.Machine.execPid s
  | .pidi => Sys2Proof.Machine.execPidi s
  | .map => Sys2Proof.Machine.execMap s
  | .mapi => Sys2Proof.Machine.execMapi s
  | .tdelta => Sys2Proof.Machine.execTdelta s
  | .loop => Sys2Proof.Machine.execLoop s

end Sys2Proof.Machine
end

