-- ==== Sys2Proof/Machine/Bus.lean ====
section
/-! DEFINITION. The host bus (20_memory.md): what a host access, a Sample Source write and the reset input
do to the block, and how a command word is run (30_encoding.md R85). -/

namespace Sys2Proof.Machine

/-- `execute(w)` (30_encoding.md R85): a legal word runs its command; an illegal word sets ILLCMD and does
nothing else. -/
def execute (w : Word) (s : State) : Host.Outcome State Fault Refusal :=
  match decode w with
  | .ok i => exec i s
  | .error _ => .next (s.raise .illcmd)

/-- `MemRead(off, 4)` (20_memory.md R62); none sends the access to R64. -/
def memRead (off : Nat) (s : State) : Option Word := (Reg.ofOffset off).map s.readReg

/-- `MemWrite(off, 4, v)` (20_memory.md R63). A write of CMD stores the word, then executes it
(10_state.md R24). -/
def memWrite (off : Nat) (v : Word) (s : State) : Host.Outcome State Fault Refusal :=
  match Reg.ofOffset off with
  | none => .fault (.busError off 4)
  | some .cmd => execute v { s with cmd := v }
  | some r => .next (s.writeReg r v)

/-- The block accepts the access: 32 bits wide, at a multiple of 4, in the window (20_memory.md R61). -/
def Access.accepted (a : Access) : Bool := a.bytes == 4 && a.off % 4 == 0 && decide (a.off ≤ 0xFC)

/-- Go on with `f` after a next state; a stop stays. -/
def thenNext (o : Host.Outcome State Fault Refusal) (f : State → State) : Host.Outcome State Fault Refusal :=
  match o with
  | .next s => .next (f s)
  | .fault r => .fault r
  | .refused r => .refused r

/-- One host access (20_memory.md R62 to R64). -/
def hostAccess (a : Access) (s : State) : Host.Outcome State Fault Refusal :=
  if a.accepted then
    match a.kind with
    | .read =>
      match memRead a.off s with
      | some v => .next (s.answer (.data v))
      | none => .fault (.busError a.off a.bytes)
    | .write v => thenNext (memWrite a.off v s) (fun t => t.answer .done)
  else .fault (.busError a.off a.bytes)

/-- One input reaches the block. While reset is asserted no access is accepted; releasing it leaves the
reset values (70_reset_and_hazards.md R200; log 5). -/
def deliver (x : Input) (s : State) : Host.Outcome State Fault Refusal :=
  match x with
  | .access a w =>
    if s.inReset then .next ((s.openWindow w).answer .notAccepted).closeWindow
    else thenNext (hostAccess a (s.openWindow w)) State.closeWindow
  | .sampleWrite w => .next (s.applySamples [w])
  | .resetAssert => .next { s with inReset := true }
  | .resetRelease => .next (if s.inReset then s.blockReset else s)

/-- The host access that issues the command word `w`: a 32-bit write of CMD (20_memory.md R63). -/
def commandWrite (w : Word) : Access := ⟨.write w, 0x00, 4⟩

/-- The bus address of an offset of the window (20_memory.md R60). -/
def busAddress (off : Nat) : Nat := Config.base + off

/-- The window's offset for a bus address; none where the address is outside BASE + 0x00 to BASE + 0xFF
and the access does not reach the block (20_memory.md R60; log 8). -/
def offsetOfAddress (addr : Nat) : Option Nat :=
  if Config.base ≤ addr ∧ addr ≤ Config.base + 0xFF then some (addr - Config.base) else none

/-- The host's byte view of the window: byte lane j of a word is its bits [8j+7:8j] (20_memory.md R65).
None outside the window. -/
def State.windowByte (s : State) (off : Nat) : Option Byte :=
  (memRead (off - off % 4) s).map fun v => v.extractLsb' (8 * (off % 4)) 8

end Sys2Proof.Machine
end

