-- ==== Sys2Proof/Machine/Step.lean ====
section
/-! DEFINITION. One step of the machine: the next input reaches the block and is handled to its end, so a
command is atomic towards the host (70_reset_and_hazards.md R210, 43_sequencing.md R163). -/

namespace Sys2Proof.Machine

/-- Take the oldest input and deliver it. With no input waiting the block stays ready and nothing changes
(60_exceptions.md R184; log 1). -/
def step (s : State) : Host.Outcome State Fault Refusal :=
  match s.pending with
  | [] => .next s
  | x :: rest => deliver x { s with pending := rest }

/-- The next thing the block meets is the host's write of the word to CMD, with reset released: the way a
command is fetched on this hardware (20_memory.md R76; log 1). What the Sample Source does meanwhile is
what `s.window` says, which is nothing in State.reset. -/
def State.withFetchWord (s : State) (nbits w : Nat) : State :=
  { s with
    inReset := false
    pending := .access (commandWrite (BitVec.ofNat 32 (w % 2 ^ nbits))) s.window :: s.pending }

end Sys2Proof.Machine
end

