-- ==== Sys2Proof/Machine/Program.lean ====
section
/-! DEFINITION. Assembler syntax and programs (30_encoding.md R89 to R91): a program is a list of host bus
accesses. -/

namespace Sys2Proof.Machine

/-- A command as text: the mnemonic, and the channel number if one stands there (30_encoding.md R89). -/
structure CommandText where
  mnemonic : String
  channel : Option Nat
  deriving DecidableEq, Repr

/-- The rows of the opcode map that a mnemonic, in upper or lower case, can name: its two spellings, the
word with CH = 0, and whether a channel follows (30_encoding.md R81, R89). -/
def mnemonicTable : List (String × String × Word × Bool) :=
  [("NOP", "nop", 0x00000000#32, false), ("NORM", "norm", 0x00000001#32, true),
   ("NORMI", "normi", 0x00000011#32, true), ("EST", "est", 0x00000002#32, false),
   ("PID", "pid", 0x00000003#32, false), ("PIDI", "pidi", 0x00000013#32, false),
   ("MAP", "map", 0x00000004#32, false), ("MAPI", "mapi", 0x00000014#32, false),
   ("TDELTA", "tdelta", 0x00000005#32, false), ("LOOP", "loop", 0x00000006#32, false)]

/-- The assembled word, `match OR (ch << 8)`; none for an assembly error: an unknown mnemonic, a missing or
surplus channel, a channel outside 0..7 (30_encoding.md R89). -/
def assemble (c : CommandText) : Option Word :=
  match mnemonicTable.find? (fun r => c.mnemonic == r.1 || c.mnemonic == r.2.1) with
  | none => none
  | some (_, _, word, takesChannel) =>
    match takesChannel, c.channel with
    | false, none => some word
    | true, some ch => if ch < 8 then some (word ||| (BitVec.ofNat 32 ch <<< 8)) else none
    | _, _ => none

/-- A value of a `wr` statement (30_encoding.md R90). -/
inductive Value where
  /-- An integer, as its 32 low bits (DESIGN CHOICE, log 13). -/
  | int (z : Int)
  /-- A hexadecimal word. -/
  | hex (w : Word)
  /-- `f32(x)` for the decimal x = ±digits * 10^exp10: the binary32 value nearest x. DESIGN CHOICE (log 13):
  halfway decimals tie to even, an overflow is infinite, and the sign written is kept where the value is a zero,
  so -0.0 and a negative decimal that rounds to zero give 0x80000000. -/
  | f32 (neg : Bool) (digits : Nat) (exp10 : Int)
  deriving DecidableEq, Repr

/-- The word a value stands for (30_encoding.md R90; DESIGN CHOICE where the rule leaves it open: the range of
an integer, ties, overflow and the sign of a zero of `f32(x)`, log 13). -/
def Value.toWord : Value → Word
  | .int z => BitVec.ofInt 32 z
  | .hex w => w
  | .f32 neg digits exp10 =>
    Binary32.ofRatio neg (digits * 10 ^ exp10.toNat) (10 ^ (-exp10).toNat)

/-- The statement forms of 30_encoding.md R90. -/
inductive Stmt where
  /-- `wr NAME, value`. -/
  | wr (r : Reg) (v : Value)
  /-- `rd NAME`. -/
  | rd (r : Reg)
  /-- `cmd C`. -/
  | cmd (c : CommandText)
  deriving DecidableEq, Repr

/-- The bus access of a statement; none where its command is an assembly error (30_encoding.md R90). -/
def Stmt.access : Stmt → Option Access
  | .wr r v => some ⟨.write v.toWord, r.offset, 4⟩
  | .rd r => some ⟨.read, r.offset, 4⟩
  | .cmd c => (assemble c).map commandWrite

/-- The pseudo-instructions of 30_encoding.md R91. The bounds of `setcal` are 16-bit words: the rule gives no
operand range and no error, and the model admits no bound outside 0..65535 (DESIGN CHOICE, log 13). -/
inductive Pseudo where
  | setcal (i : Chan) (min max : Half)
  | clrstatus
  | tick (t : Value)
  | normi (i : Chan) (raw : Value)
  | pidi (e dt : Value)
  | mapi (c : Value)
  | rdoffset
  deriving DecidableEq, Repr

/-- The expansions, the listed statements in order (30_encoding.md R91). -/
def Pseudo.expand : Pseudo → List Stmt
  | .setcal i min max => [.wr (.cal i) (.hex ((max.setWidth 32 <<< 16) ||| min.setWidth 32))]
  | .clrstatus => [.wr .status (.int 0xF)]
  | .tick t => [.wr .tickIn t, .cmd ⟨"TDELTA", none⟩]
  | .normi i raw => [.wr .opa raw, .cmd ⟨"NORMI", some i.val⟩]
  | .pidi e dt => [.wr .errIn e, .wr .dtIn dt, .cmd ⟨"PIDI", none⟩]
  | .mapi c => [.wr .corrIn c, .cmd ⟨"MAPI", none⟩]
  | .rdoffset => [.rd .offsetLo, .rd .offsetHi]

/-- The accesses of a program, in order; none if a statement does not assemble (30_encoding.md R90). -/
def programAccesses (p : List Stmt) : Option (List Access) := p.mapM Stmt.access

/-- The encoding of an access: the offset and data of a write, the offset of a read (30_encoding.md R90). -/
def Access.encoding (a : Access) : Nat × Option Word :=
  match a.kind with
  | .read => (a.off, none)
  | .write v => (a.off, some v)

/-- The host's next accesses are these, after what is already waiting, and the Sample Source writes nothing
while they run (a program's start in 95_test_vectors.md; log 1). -/
def State.enqueue (s : State) (as : List Access) : State :=
  { s with pending := s.pending ++ as.map (fun a => .access a Window.quiet) }

end Sys2Proof.Machine
end

