-- ==== Sys2Proof/Safety.lean ====
section
/-! DEFINITION. The terms claims are stated in: safe runs, the frame of a command, the state invariant, and
the boot contract of 70_reset_and_hazards.md R204. -/

namespace Sys2Proof.Machine

/-- The next `n` steps take the machine to a next state each: no bus error on the way. -/
def SafeFor (n : Nat) (s : State) : Prop := ∃ t, Sys2Proof.core.run n s = .next t

/-- The input is no access the block would refuse (20_memory.md R64). -/
def Input.isAccepted : Input → Bool
  | .access a _ => a.accepted
  | .sampleWrite _ => true
  | .resetAssert => true
  | .resetRelease => true

/-- The registers of the block outside `changed` read as before, and so does everything around them: the
sample port, the open window, the reset line, the waiting inputs, the bus answer and the free counter. -/
def OnlyChanges (changed : List Reg) (s t : State) : Prop :=
  (∀ r : Reg, r ∉ changed → t.readReg r = s.readReg r) ∧
  t.sample = s.sample ∧ t.window = s.window ∧ t.inReset = s.inReset ∧
  t.pending = s.pending ∧ t.response = s.response ∧ t.freeCount = s.freeCount

/-- A duty register holds a value of [-32767, 32767] (42_actuation.md R145) and its line register shows
it (R147). -/
def DutyShown (duty pwm : Word) : Prop :=
  -32767 ≤ duty.toInt ∧ duty.toInt ≤ 32767 ∧ pwm = lines duty.toInt

/-- A normalize result's range (40_normalize_estimate.md R100). -/
def NormInRange (n : Word) : Prop := -655350000 ≤ n.toInt ∧ n.toInt ≤ 655350000

/-- What holds of the block in every state a run reaches: the line registers show the duties
(10_state.md R45), the integral never exceeds its ceiling (41_pid.md R122), the normalize results keep
their range (40_normalize_estimate.md R100) and the offset fits 48 bits (R104). -/
structure Inv (s : State) : Prop where
  left : DutyShown s.dutyL s.pwmL
  right : DutyShown s.dutyR s.pwmR
  integral : Binary32.fgt s.integral Config.maxIntegral = false
  normOut : NormInRange s.normOut
  norm : ∀ i : Chan, NormInRange s.norm[i]
  offset : -(2 ^ 48) < s.offset.toInt ∧ s.offset.toInt < 2 ^ 48

/-- The host access at the head of the waiting inputs is a 32-bit write of one of these command words to
CMD. -/
def State.issues (s : State) (is : List Instr) : Prop :=
  ∃ i ∈ is, ∃ w rest, s.pending = .access (commandWrite (encode i)) w :: rest

/-- The next input releases the asserted reset line. -/
def State.releasesReset (s : State) : Prop := s.inReset = true ∧ ∃ rest, s.pending = .resetRelease :: rest

/-- The word an RW register reads back after a host write of `v`: only the implemented bits are stored
(10_state.md R26 to R37). -/
def Reg.readBack (r : Reg) (v : Word) : Word :=
  match r with
  | .opa => v &&& 0x0000FFFF#32
  | .neutralSpeed => (v.extractLsb' 0 16).signExtend 32
  | .dutyMax => (v.extractLsb' 0 16).signExtend 32
  | _ => v

/-- The registers whose view a host write of an RW register changes: itself, and for CAL[i] the derived
RANGE[i] (20_memory.md R63, R70). -/
def Reg.touchedByWrite : Reg → List Reg
  | .cal i => [.cal i, .range i]
  | r => [r]

/-- What the boot contract has seen so far (70_reset_and_hazards.md R204). -/
structure BootProgress where
  /-- Which CAL[i] have been written. -/
  cal : Vector Bool 8
  kp : Bool
  ki : Bool
  kd : Bool
  /-- The last NEUTRAL_SPEED and DUTY_MAX written. -/
  neutral : Option Half
  dutyMax : Option Half
  /-- TICK_IN has been written after the configuration. -/
  tick : Bool
  /-- TDELTA has primed the tick state. -/
  primed : Bool
  /-- The control loop has begun. -/
  started : Bool
  deriving DecidableEq, Repr

/-- Nothing has been written yet. -/
def BootProgress.fresh : BootProgress :=
  ⟨Vector.replicate 8 false, false, false, false, none, none, false, false, false⟩

/-- Steps 2 to 4 are done: CAL, the gains, and a legal speed pair (42_actuation.md R140). -/
def BootProgress.configured (p : BootProgress) : Bool :=
  p.cal.all (fun b => b) && p.kp && p.ki && p.kd &&
  match p.neutral, p.dutyMax with
  | some n, some d => decide (-d.toInt ≤ n.toInt) && decide (n.toInt ≤ d.toInt)
  | _, _ => false

/-- A command that needs the boot steps done: "the first LOOP, or the first PID, MAP or EST"
(70_reset_and_hazards.md R204; log 14). -/
def needsBoot : Instr → Bool
  | .loop | .pid | .map | .est => true
  | .nop | .norm _ | .normi _ | .pidi | .mapi | .tdelta => false

/-- One accepted access seen by the boot contract; none where the access violates it: a needing command before
the steps are done, a second write of CAL[i] before the loop, or configuration rewritten after it began. DESIGN
CHOICE (log 14): KP, KI, KD, NEUTRAL_SPEED and DUTY_MAX may be written again until the loop starts, also after
step 5, and the tick state then stays primed; the speed pair that counts is the last one written. R204 puts steps
2 to 4 before step 5 and forbids a rewrite only after the start, and does not say whether such a write needs a new
priming. -/
def BootProgress.seeAccepted (p : BootProgress) (a : Access) : Option BootProgress :=
  match a.kind, Reg.ofOffset a.off with
  | .write v, some .cmd =>
    match decode v with
    | .ok i =>
      if needsBoot i then
        if p.configured && p.primed then some { p with started := true } else none
      else if i = .tdelta ∧ p.tick = true then some { p with primed := true }
      else some p
    | .error _ => some p
  | .write _, some (.cal i) =>
    if p.started || p.cal[i] then none else some { p with cal := p.cal.set i.val true i.isLt }
  | .write _, some .kp => if p.started then none else some { p with kp := true }
  | .write _, some .ki => if p.started then none else some { p with ki := true }
  | .write _, some .kd => if p.started then none else some { p with kd := true }
  | .write v, some .neutralSpeed =>
    if p.started then none else some { p with neutral := some (v.extractLsb' 0 16) }
  | .write v, some .dutyMax =>
    if p.started then none else some { p with dutyMax := some (v.extractLsb' 0 16) }
  | .write _, some .tickIn => some { p with tick := p.tick || p.configured }
  | _, _ => some p

/-- One access seen by the boot contract. An access the block refuses changes no state (20_memory.md R64), so
it is neither a boot step nor a rewrite. -/
def BootProgress.see (p : BootProgress) (a : Access) : Option BootProgress :=
  if a.accepted then p.seeAccepted a else some p

/-- The host keeps the boot contract over these accesses (70_reset_and_hazards.md R204): "A model states
such a rewrite as a violation of the boot contract, not as a fault of the block". -/
def keepsBootContract (as : List Access) : Bool :=
  (as.foldlM BootProgress.see BootProgress.fresh).isSome

end Sys2Proof.Machine
end

