-- ==== Sys2Proof/Certificates/Slice0/Obligations.lean ====
section
/-! DEFINITION. What is stated about the model. Each statement's docstring names the rule of spec/ it
formalises. The formulas are written out here from the rules, not taken from the meanings. -/

open Sys2Proof Sys2Proof.Machine Sys2Proof.Machine.Binary32

/-! ## Shared shapes of the statements -/

/-- What `normalize(raw, i)` gives (40_normalize_estimate.md R100, R101). -/
def Sys2Proof.Claims.normalized (c : Cal) (raw : Half) : Int :=
  if (c.max.toNat : Int) - c.min.toNat ≤ 0 then 5000
  else Int.tdiv (((raw.toNat : Int) - c.min.toNat) * 10000) ((c.max.toNat : Int) - c.min.toNat)

/-- RANGE[i] ≤ 0 (00_scope.md R14, 10_state.md R34). -/
def Sys2Proof.Claims.isDegenerate (c : Cal) : Prop := (c.max.toNat : Int) - c.min.toNat ≤ 0

/-- A command that runs the controller step, with the error it takes (30_encoding.md R82, 43_sequencing.md
R161). -/
def Sys2Proof.Claims.StepsController (s : State) (i : Instr) (e : F32) : Prop :=
  (i = .pid ∧ e = i2f s.offset.toInt) ∨ (i = .pidi ∧ e = s.errIn) ∨
  (i = .loop ∧ ∃ a, exec .est s = .next a ∧ e = i2f a.offset.toInt)

/-- `t` is `s` after `pid_step(e, dtr)` (41_pid.md R120 to R125). -/
def Sys2Proof.Claims.ControllerStep (s : State) (e dtr : F32) (t : State) : Prop :=
  let dt := if fgt dtr 0x358637BD#32 then dtr else 0x358637BD#32
  let sum := fadd s.integral (fmul e dt)
  let i1 := if fgt sum 0x5F7FFFFF#32 then 0x5F7FFFFF#32 else sum
  let d := fdiv (fsub e s.prevError) dt
  let c := fadd (fadd (fmul s.kp e) (fmul s.ki i1)) (fmul s.kd d)
  t.integral = i1 ∧ t.prevError = e ∧ t.correction = c ∧
  t.status = (if isFinite i1 && isFinite d && isFinite c then s.status else s.status ||| 0b0100#4) ∧
  OnlyChanges [.integral, .prevError, .correction, .status] s t

/-- The legal pair (42_actuation.md R140). -/
def Sys2Proof.Claims.pairIsLegal (s : State) : Prop :=
  -s.dutyMax.toInt ≤ s.neutralSpeed.toInt ∧ s.neutralSpeed.toInt ≤ s.dutyMax.toInt

/-- `clamp_f` (42_actuation.md R141). -/
def Sys2Proof.Claims.clamped (v lo hi : F32) : F32 :=
  if isNaN v then lo else if flt v lo then lo else if fgt v hi then hi else v

/-- A finite value rounded toward zero (00_scope.md R10): `scaled` counts units of 2^-149. -/
def Sys2Proof.Claims.truncated (x : F32) : Int := Int.tdiv (scaled x) (2 ^ 149)

/-- `t` is `s` after `map_duty(c)` (42_actuation.md R140 to R142, R147). -/
def Sys2Proof.Claims.MapStep (s : State) (c : F32) (t : State) : Prop :=
  let n := i2f s.neutralSpeed.toInt
  let h := i2f s.dutyMax.toInt
  let l := Sys2Proof.Claims.truncated (Sys2Proof.Claims.clamped (fadd n c) n h)
  let r := Sys2Proof.Claims.truncated (Sys2Proof.Claims.clamped (fsub n c) n h)
  (Sys2Proof.Claims.pairIsLegal s →
    t.dutyL = BitVec.ofInt 32 l ∧ t.dutyR = BitVec.ofInt 32 r ∧
    t.pwmL = lines l ∧ t.pwmR = lines r ∧
    t.status = (if isNaN c then s.status ||| 0b0100#4 else s.status) ∧
    OnlyChanges [.dutyL, .dutyR, .pwmL, .pwmR, .status] s t) ∧
  (¬ Sys2Proof.Claims.pairIsLegal s → t = { s with status := s.status ||| 0b0010#4 })

/-- The commands that map a correction, each with the correction it maps (30_encoding.md R82); LOOP maps the
CORRECTION it has just written, which is the one it leaves (43_sequencing.md R161). -/
def Sys2Proof.Claims.MapsCorrection (s : State) (i : Instr) (c : F32) : Prop :=
  (i = .map ∧ c = s.correction) ∨ (i = .mapi ∧ c = s.corrIn) ∨
  (i = .loop ∧ ∃ t, exec .loop s = .next t ∧ c = t.correction)

/-- `r` is `num / den` units of 2^-149 rounded to nearest, ties to an even significand, where magnitudes
from halfway between FLT_MAX and 2^128 on are infinite (00_scope.md R10). -/
def Sys2Proof.Claims.RoundsTo (num : Int) (den : Nat) (r : F32) : Prop :=
  if (2 ^ 25 - 1) * 2 ^ 252 * den ≤ num.natAbs then isInf r = true ∧ sign r = decide (num < 0)
  else isFinite r = true ∧ ∀ z : F32, isFinite z = true →
    |scaled r * den - num| ≤ |scaled z * den - num| ∧
    (|scaled r * den - num| = |scaled z * den - num| → scaled z = scaled r ∨ mag r % 2 = 0)

/-! ## Encoding -/

/-- 30_encoding.md R81, R85, R89 and R88: a word decodes to an instruction exactly when it is that
instruction's word; from bytes, one command takes four of them. -/
def Obligations.DecodeAndEncodeAgree : Prop :=
  (∀ (w : Word) (i : Instr), decode w = .ok i ↔ encode i = w) ∧
  (∀ (i : Instr) (rest : List Byte), decodeBytes (bytesOfWord (encode i) ++ rest) = .ok (i, rest))

/-- 30_encoding.md R85: a word matching a row of the opcode map runs the command it encodes; any other
word sets ILLCMD and does nothing else. -/
def Obligations.CommandWordsRunByTheOpcodeMap : Prop :=
  ∀ (w : Word) (s : State),
    ((∃ r ∈ opcodeTable, r.matchesWord w = true) →
      ∃ i, encode i = w ∧ i.row.matchesWord w = true ∧ execute w s = exec i s) ∧
    ((¬ ∃ r ∈ opcodeTable, r.matchesWord w = true) →
      execute w s = .next { s with status := s.status ||| 0b0001#4 })

/-- 30_encoding.md R86: OP 0x7 to 0xF is illegal whatever S and CH hold. -/
def Obligations.ReservedOperationsAreIllegal : Prop :=
  ∀ (w : Word) (s : State), 7 ≤ (w.extractLsb' 0 4).toNat →
    execute w s = .next { s with status := s.status ||| 0b0001#4 }

/-- 30_encoding.md R81 and 95_test_vectors.md section 2.6: words written out from the opcode map. -/
def Obligations.WrittenWordsDecode : Prop :=
  decode 0x00000000#32 = .ok .nop ∧ decode 0x00000701#32 = .ok (.norm 7) ∧
  decode 0x00000211#32 = .ok (.normi 2) ∧ decode 0x00000002#32 = .ok .est ∧
  decode 0x00000003#32 = .ok .pid ∧ decode 0x00000013#32 = .ok .pidi ∧
  decode 0x00000004#32 = .ok .map ∧ decode 0x00000014#32 = .ok .mapi ∧
  decode 0x00000005#32 = .ok .tdelta ∧ decode 0x00000006#32 = .ok .loop ∧
  decode 0x00000010#32 = .error .sourceNotAllowed ∧ decode 0x00000113#32 = .error .channelNotAllowed ∧
  decode 0x00000080#32 = .error .reservedBits ∧ decode 0x0000000F#32 = .error .reservedOp

/-- 30_encoding.md R89: the assembled word is `match OR (ch << 8)`; a channel outside 0..7, or one that is
missing or surplus, is an assembly error. -/
def Obligations.AssemblerGivesTheEncoding : Prop :=
  (∀ m ∈ ["NORM", "norm"], ∀ ch : Nat, assemble ⟨m, some ch⟩ =
    if h : ch < 8 then some (encode (.norm ⟨ch, h⟩)) else none) ∧
  (∀ m ∈ ["NORMI", "normi"], ∀ ch : Nat, assemble ⟨m, some ch⟩ =
    if h : ch < 8 then some (encode (.normi ⟨ch, h⟩)) else none) ∧
  (∀ m ∈ ["NORM", "norm", "NORMI", "normi"], assemble ⟨m, none⟩ = none) ∧
  (∀ p ∈ [("NOP", Instr.nop), ("nop", .nop), ("EST", .est), ("est", .est), ("PID", .pid), ("pid", .pid),
      ("PIDI", .pidi), ("pidi", .pidi), ("MAP", .map), ("map", .map), ("MAPI", .mapi), ("mapi", .mapi),
      ("TDELTA", .tdelta), ("tdelta", .tdelta), ("LOOP", .loop), ("loop", .loop)],
    assemble ⟨p.1, none⟩ = some (encode p.2) ∧ ∀ ch : Nat, assemble ⟨p.1, some ch⟩ = none)

/-! ## The register window and the host bus -/

/-- 10_state.md R23 with 20_memory.md R61: every register stands at the offset and has the access code that
the table of R23 gives it, and an accepted offset names exactly one register. -/
def Obligations.RegisterMapIsOneToOne : Prop :=
  (∀ (off : Nat) (r : Reg), Reg.ofOffset off = some r ↔ r.offset = off) ∧
  (∀ p ∈ [(Reg.cmd, 0x00, AccessCode.cmdw), (.status, 0x04, .w1c), (.opa, 0x08, .rw), (.errIn, 0x0C, .rw),
      (.dtIn, 0x10, .rw), (.corrIn, 0x14, .rw), (.tickIn, 0x18, .rw), (.tickPrev, 0x1C, .ro),
      (.elapsed, 0x20, .ro), (.kp, 0x24, .rw), (.ki, 0x28, .rw), (.kd, 0x2C, .rw),
      (.neutralSpeed, 0x30, .rw), (.dutyMax, 0x34, .rw), (.integral, 0x38, .ro), (.prevError, 0x3C, .ro),
      (.correction, 0x40, .ro), (.normOut, 0x44, .ro), (.offsetLo, 0x48, .ro), (.offsetHi, 0x4C, .ro),
      (.dutyL, 0x50, .ro), (.dutyR, 0x54, .ro), (.pwmL, 0x58, .ro), (.pwmR, 0x5C, .ro)],
    p.1.offset = p.2.1 ∧ p.1.access = p.2.2) ∧
  ∀ i : Chan,
    ((Reg.cal i).offset = 0x60 + 4 * i.val ∧ (Reg.cal i).access = .rw) ∧
    ((Reg.range i).offset = 0x80 + 4 * i.val ∧ (Reg.range i).access = .ro) ∧
    ((Reg.norm i).offset = 0xA0 + 4 * i.val ∧ (Reg.norm i).access = .ro) ∧
    ((Reg.sample i).offset = 0xC0 + 4 * i.val ∧ (Reg.sample i).access = .ro) ∧
    ((Reg.reserved i).offset = 0xE0 + 4 * i.val ∧ (Reg.reserved i).access = .reserved)

/-- 10_state.md R23 (its Format column) with R24 to R47: what a read at each offset of the table returns. -/
def Obligations.ReadsShowTheRegisters : Prop :=
  ∀ s : State,
    (∀ p ∈ [(0x00, s.cmd), (0x04, 0#28 ++ s.status), (0x08, 0#16 ++ s.opa), (0x0C, s.errIn), (0x10, s.dtIn),
        (0x14, s.corrIn), (0x18, s.tickIn), (0x1C, s.tickPrev), (0x20, s.elapsed), (0x24, s.kp), (0x28, s.ki),
        (0x2C, s.kd), (0x38, s.integral), (0x3C, s.prevError), (0x40, s.correction), (0x44, s.normOut),
        (0x50, s.dutyL), (0x54, s.dutyR), (0x58, s.pwmL), (0x5C, s.pwmR)],
      memRead p.1 s = some p.2) ∧
    (∃ n h, memRead 0x30 s = some n ∧ n.toInt = s.neutralSpeed.toInt ∧
      memRead 0x34 s = some h ∧ h.toInt = s.dutyMax.toInt) ∧
    ∀ i : Chan,
      memRead (0x60 + 4 * i.val) s = some (s.cal[i].max ++ s.cal[i].min) ∧
      (∃ v, memRead (0x80 + 4 * i.val) s = some v ∧
        v.toInt = (s.cal[i].max.toNat : Int) - s.cal[i].min.toNat) ∧
      memRead (0xA0 + 4 * i.val) s = some s.norm[i] ∧
      memRead (0xC0 + 4 * i.val) s = some (0#16 ++ s.sampleRead i)

/-- 20_memory.md R63 (with 10_state.md R25 to R37 for what each register stores): what a host write does,
by access code. -/
def Obligations.HostWritesActByAccessCode : Prop :=
  ∀ (s : State) (v : Word),
    (∀ off : Nat, off % 4 ≠ 0 ∨ 0xFC < off → memWrite off v s = .fault (.busError off 4)) ∧
    ∀ r : Reg,
      (r.access = .cmdw → memWrite r.offset v s = execute v { s with cmd := v }) ∧
      (r.access = .w1c → ∃ t, memWrite r.offset v s = .next t ∧
        t.readReg r = s.readReg r &&& ~~~(v &&& 0x0000000F#32) ∧ OnlyChanges [r] s t) ∧
      (r.access = .rw → ∃ t, memWrite r.offset v s = .next t ∧ t.readReg r = r.readBack v ∧
        OnlyChanges r.touchedByWrite s t ∧
        ∀ i, r = .cal i → (t.readReg (.range i)).toInt =
          ((v.extractLsb' 16 16).toNat : Int) - (v.extractLsb' 0 16).toNat) ∧
      (r.access = .ro ∨ r.access = .reserved → memWrite r.offset v s = .next s)

/-- 20_memory.md R63 and 70_reset_and_hazards.md R210, as one step: outside reset a step whose next input is
an accepted host write is that write's `memWrite`, then the answer and the end of the window (model fields: logs
1, 2 and 10). For each access code but CMDW it says what the step leaves; SAMPLE apart, which the Sample Source
writes meanwhile. -/
def Obligations.StepRunsTheHostWrite : Prop :=
  ∀ (s : State) (r : Reg) (v : Word) (w : Window) (rest : List Input),
    s.inReset = false → s.pending = .access ⟨.write v, r.offset, 4⟩ w :: rest →
    step s = thenNext (memWrite r.offset v { s with pending := rest, window := w })
      (fun t => (t.answer .done).closeWindow) ∧
    (r.access = .rw → ∃ t, step s = .next t ∧ t.pending = rest ∧ t.readReg r = r.readBack v ∧
      ∀ q : Reg, q ∉ r.touchedByWrite → (∀ i, q ≠ .sample i) → t.readReg q = s.readReg q) ∧
    (r.access = .w1c → ∃ t, step s = .next t ∧ t.pending = rest ∧
      t.readReg r = s.readReg r &&& ~~~(v &&& 0x0000000F#32) ∧
      ∀ q : Reg, q ≠ r → (∀ i, q ≠ .sample i) → t.readReg q = s.readReg q) ∧
    (r.access = .ro ∨ r.access = .reserved → ∃ t, step s = .next t ∧ t.pending = rest ∧
      ∀ q : Reg, (∀ i, q ≠ .sample i) → t.readReg q = s.readReg q)

/-- 20_memory.md R62: an accepted read answers with the register's view, and no register changes but for
what the Sample Source writes meanwhile; a second read of the same register answers the same, SAMPLE apart. -/
def Obligations.HostReadsHaveNoSideEffect : Prop :=
  ∀ (s : State) (r : Reg) (w : Window) (rest : List Input),
    s.inReset = false → s.pending = .access ⟨.read, r.offset, 4⟩ w :: rest →
    ∃ t, step s = .next t ∧ t.response = .data ((s.openWindow w).readReg r) ∧ t.pending = rest ∧
      (∀ q : Reg, (∀ i, q ≠ .sample i) → t.readReg q = s.readReg q) ∧
      (w.writes = [] → t.sample = s.sample) ∧
      ∀ (w' : Window) (rest' : List Input), (∀ i, r ≠ .sample i) →
        rest = .access ⟨.read, r.offset, 4⟩ w' :: rest' →
        ∃ u, step t = .next u ∧ u.response = t.response

/-- 10_state.md R47: reserved offsets read 0 and ignore writes; reserved bits read 0. -/
def Obligations.ReservedSpaceReadsZero : Prop :=
  ∀ (s : State) (v : Word),
    (∀ off : Nat, off % 4 = 0 → 0xE0 ≤ off → off ≤ 0xFC →
      memRead off s = some 0#32 ∧ memWrite off v s = .next s) ∧
    (s.readReg .status).extractLsb' 4 28 = 0#28 ∧ (s.readReg .opa).extractLsb' 16 16 = 0#16 ∧
    ∀ i, (s.readReg (.sample i)).extractLsb' 16 16 = 0#16

/-- 20_memory.md R61, R64 and 60_exceptions.md R171, R173: a step stops exactly on a host access the block
refuses, outside reset; no command ever stops, and nothing is refused. That the bus error is a fault of the model
is log 4. That no access stops while reset is asserted, a misaligned one included, is the model's choice (log 5):
70_reset_and_hazards.md R200 says only that no access is accepted then. -/
def Obligations.OnlyRefusedAccessesStop : Prop :=
  ∀ s : State,
    ((∃ r, step s = .fault r) ↔ s.inReset = false ∧ ∃ a w rest, s.pending = .access a w :: rest ∧
      (a.bytes ≠ 4 ∨ a.off % 4 ≠ 0 ∨ 0xFC < a.off)) ∧
    ∀ r, step s ≠ .refused r

/-- 10_state.md R24, 43_sequencing.md R163, 70_reset_and_hazards.md R210: a write of a legal word to CMD
stores the word, runs its command to the end, answers the host and closes the window. -/
def Obligations.StepRunsTheDecodedCommand : Prop :=
  ∀ (s : State) (v : Word) (i : Instr) (w : Window) (rest : List Input),
    s.inReset = false → s.pending = .access (commandWrite v) w :: rest → decode v = .ok i →
    step s = thenNext (exec i { s with pending := rest, window := w, cmd := v })
      (fun t => (t.answer .done).closeWindow)

/-- 60_exceptions.md R172: after an illegal word CMD holds it, ILLCMD is set, every other register is
unchanged, and the next CMD write is decoded normally. -/
def Obligations.IllegalWordSetsOnlyIllcmd : Prop :=
  ∀ (s : State) (v : Word) (w : Window) (rest : List Input),
    s.inReset = false → s.pending = .access (commandWrite v) w :: rest → (∀ i, encode i ≠ v) →
    ∃ t, step s = .next t ∧ t.readReg .cmd = v ∧ t.flag .illcmd = true ∧
      t.status = s.status ||| 0b0001#4 ∧
      (∀ q : Reg, q ≠ .cmd → q ≠ .status → (∀ i, q ≠ .sample i) → t.readReg q = s.readReg q) ∧
      (w.writes = [] → t.sample = s.sample) ∧
      ∀ (i : Instr) (w' : Window) (rest' : List Input), rest = .access (commandWrite (encode i)) w' :: rest' →
        step t = thenNext (exec i { t with pending := rest', window := w', cmd := encode i })
          (fun u => (u.answer .done).closeWindow)

/-- 10_state.md R43: OFFSET is read as two words. -/
def Obligations.OffsetIsReadAsTwoWords : Prop :=
  ∀ s : State, ∃ lo hi, memRead 0x48 s = some lo ∧ memRead 0x4C s = some hi ∧
    (hi ++ lo : BitVec 64) = s.offset

/-- 20_memory.md R65: byte lane j of a word carries its bits [8j+7:8j]. -/
def Obligations.ByteLanesAreLittleEndian : Prop :=
  ∀ (s : State) (r : Reg), ∃ b0 b1 b2 b3,
    s.windowByte r.offset = some b0 ∧ s.windowByte (r.offset + 1) = some b1 ∧
    s.windowByte (r.offset + 2) = some b2 ∧ s.windowByte (r.offset + 3) = some b3 ∧
    (s.readReg r).toNat = b0.toNat + 2 ^ 8 * b1.toNat + 2 ^ 16 * b2.toNat + 2 ^ 24 * b3.toNat

/-- 20_memory.md R60: the window is the bus addresses BASE + 0x00 to BASE + 0xFF, whatever BASE is. -/
def Obligations.WindowStandsAtBase : Prop :=
  ∀ addr off : Nat, offsetOfAddress addr = some off ↔ addr = busAddress off ∧ off ≤ 0xFF

/-! ## Flags -/

/-- 60_exceptions.md R177: a flag stays set until the host writes 1 to it or the block is reset; clearing a
flag changes nothing else. That a flag also outlasts the step that asserts the reset input, until the release, is
the model's choice (log 5): the spec does not say what STATUS holds meanwhile. -/
def Obligations.FlagsAreSticky : Prop :=
  (∀ (s t : State) (f : Flag), step s = .next t → s.flag f = true →
    t.flag f = true ∨ s.releasesReset ∨
    ∃ v w rest, s.pending = .access ⟨.write v, 0x04, 4⟩ w :: rest ∧ v.getLsbD f.bit = true) ∧
  (∀ (s : State) (v : Word), ∃ t, memWrite 0x04 v s = .next t ∧ OnlyChanges [.status] s t ∧
    ∀ f : Flag, t.flag f = (s.flag f && !v.getLsbD f.bit)) ∧
  (∀ (i : Instr) (s t : State) (f : Flag), exec i s = .next t → s.flag f = true → t.flag f = true)

/-- 10_state.md R48 and R25: no command reads a flag. What a command does is the same whatever STATUS
holds, and it only sets the same flags on top. -/
def Obligations.NoCommandReadsAFlag : Prop :=
  ∀ (i : Instr) (s : State), ∃ (t : State) (raised : BitVec 4), ∀ v : BitVec 4,
    exec i { s with status := v } = .next { t with status := v ||| raised }

/-! ## Whole-machine rules and invariants -/

/-- 10_state.md R31, R32, R38 to R45, 41_pid.md R129, 70_reset_and_hazards.md R202: a result register
changes only in a step that issues one of its commands, or that releases the reset. That none of them, PWM_L and
PWM_R included, changes when the reset input is asserted is the model's choice (log 5). -/
def Obligations.ResultRegistersHaveOnlyTheirWriters : Prop :=
  ∀ s t : State, step s = .next t → ¬ s.releasesReset →
    (t.tickPrev ≠ s.tickPrev ∨ t.elapsed ≠ s.elapsed → s.issues [.tdelta]) ∧
    (t.integral ≠ s.integral ∨ t.prevError ≠ s.prevError ∨ t.correction ≠ s.correction →
      s.issues [.pid, .pidi, .loop]) ∧
    (t.normOut ≠ s.normOut → ∃ ch, s.issues [.norm ch, .normi ch]) ∧
    (t.norm ≠ s.norm ∨ t.offset ≠ s.offset → s.issues [.est, .loop]) ∧
    (t.dutyL ≠ s.dutyL ∨ t.dutyR ≠ s.dutyR ∨ t.pwmL ≠ s.pwmL ∨ t.pwmR ≠ s.pwmR →
      s.issues [.map, .mapi, .loop])

/-- 10_state.md R20, R33 ("Only the host writes CAL"): an RW register, or CMD, changes only in a step that
is the host's write of it, or that releases the reset. That they keep their values when the reset input is
asserted is the model's choice (log 5). -/
def Obligations.HostRegistersChangeOnlyByTheHost : Prop :=
  ∀ (s t : State) (r : Reg), step s = .next t → r.access = .rw ∨ r.access = .cmdw →
    t.readReg r ≠ s.readReg r →
    s.releasesReset ∨ ∃ v w rest, s.pending = .access ⟨.write v, r.offset, 4⟩ w :: rest

/-- `Inv` (Safety.lean) holds right after reset. -/
def Obligations.InvariantHoldsAtReset : Prop := Inv State.reset

/-- 10_state.md R45, 41_pid.md R122, 40_normalize_estimate.md R100, R104, 42_actuation.md R145: every step
keeps `Inv` (Safety.lean), from every state that meets it. -/
def Obligations.EveryStepKeepsTheInvariant : Prop :=
  ∀ s t : State, Inv s → step s = .next t → Inv t

/-! ## The sample port -/

/-- 20_memory.md R67: SampleRead(i) returns a value the channel held when the window began or one written to
it in the window; with no write, the value it held; and the draws of the channels are independent: any
choice of one such value per channel is some window's. -/
def Obligations.SampleReadDrawsFromTheWindow : Prop :=
  ∀ s : State,
    (∀ i, s.sampleRead i = s.heldSample i ∨
      ∃ w ∈ s.window.writes, w.ch = i ∧ s.sampleRead i = w.value) ∧
    (∀ i, (∀ w ∈ s.window.writes, w.ch ≠ i) → s.sampleRead i = s.heldSample i) ∧
    ∀ pick : Chan → Half,
      (∀ i, pick i = s.heldSample i ∨ ∃ w ∈ s.window.writes, w.ch = i ∧ pick i = w.value) →
      ∃ draws : Vector Nat 8, ∀ i, (s.openWindow ⟨s.window.writes, draws⟩).sampleRead i = pick i

/-- 10_state.md R46, 20_memory.md R66, 70_reset_and_hazards.md R201: a channel of the port changes only by
the Sample Source's own writes, and then holds the last of them; the block and its reset never change it. -/
def Obligations.OnlyTheSampleSourceWritesThePort : Prop :=
  ∀ (s t : State) (i : Chan), step s = .next t →
    (t.sample[i] = s.sample[i] ∨
      (∃ w rest, s.pending = .sampleWrite w :: rest ∧ w.ch = i ∧ t.sample[i] = .holds w.value) ∨
      (∃ a w rest x, s.pending = .access a w :: rest ∧
        (w.writes.filter (fun y => y.ch == i)).getLast? = some x ∧ t.sample[i] = .holds x.value)) ∧
    (∀ w rest, s.pending = .sampleWrite w :: rest → w.ch = i → t.sample[i] = .holds w.value) ∧
    (∀ a w rest x, s.pending = .access a w :: rest →
      (w.writes.filter (fun y => y.ch == i)).getLast? = some x → t.sample[i] = .holds x.value)

/-- 70_reset_and_hazards.md R211, 30_encoding.md R82: only NORM, EST and LOOP read the sample port; the
result of every other command is the same whatever the port and the window hold. -/
def Obligations.OtherCommandsIgnoreThePort : Prop :=
  ∀ (i : Instr) (s : State), (∀ ch, i ≠ .norm ch) → i ≠ .est → i ≠ .loop →
    ∃ t : State, ∀ (p : Vector SampleCell 8) (w : Window) (n : Nat),
      exec i { s with sample := p, window := w, freeCount := n } =
        .next { t with sample := p, window := w, freeCount := n }

/-! ## Normalizer and estimator -/

/-- 40_normalize_estimate.md R102: NORM. -/
def Obligations.NormResult : Prop :=
  ∀ (s : State) (ch : Chan), encode (.norm ch) = 0x00000001#32 ||| (BitVec.ofNat 32 ch.val <<< 8) ∧
    decode (0x00000001#32 ||| (BitVec.ofNat 32 ch.val <<< 8)) = .ok (.norm ch) ∧
    ∃ t, exec (.norm ch) s = .next t ∧
      t.normOut.toInt = Claims.normalized s.cal[ch] (s.sampleRead ch) ∧
      (Claims.isDegenerate s.cal[ch] → t.status = s.status ||| 0b1000#4) ∧
      (¬ Claims.isDegenerate s.cal[ch] → t.status = s.status) ∧
      OnlyChanges [.normOut, .status] s t

/-- 40_normalize_estimate.md R103: NORMI. -/
def Obligations.NormiResult : Prop :=
  ∀ (s : State) (ch : Chan), encode (.normi ch) = 0x00000011#32 ||| (BitVec.ofNat 32 ch.val <<< 8) ∧
    ∃ t, exec (.normi ch) s = .next t ∧
      t.normOut.toInt = Claims.normalized s.cal[ch] s.opa ∧
      (Claims.isDegenerate s.cal[ch] → t.status = s.status ||| 0b1000#4) ∧
      (¬ Claims.isDegenerate s.cal[ch] → t.status = s.status) ∧
      OnlyChanges [.normOut, .status] s t

/-- 40_normalize_estimate.md R104 (with R105's widths: nothing wraps): EST. -/
def Obligations.EstResult : Prop :=
  encode .est = 0x00000002#32 ∧
  ∀ s : State, ∃ t, exec .est s = .next t ∧
    (∀ i : Chan, t.norm[i].toInt = Claims.normalized s.cal[i] (s.sampleRead i)) ∧
    t.offset.toInt = Int.tdiv
      (∑ i : Chan, (Config.weights[i]).toInt * Claims.normalized s.cal[i] (s.sampleRead i)) 8 ∧
    |∑ i : Chan, (Config.weights[i]).toInt * Claims.normalized s.cal[i] (s.sampleRead i)| < 2 ^ 48 ∧
    ((∀ i : Chan, Claims.isDegenerate s.cal[i]) → t.offset = 0#64) ∧
    ((∃ i : Chan, Claims.isDegenerate s.cal[i]) → t.status = s.status ||| 0b1000#4) ∧
    ((∀ i : Chan, ¬ Claims.isDegenerate s.cal[i]) → t.status = s.status) ∧
    OnlyChanges ([.offsetLo, .offsetHi, .status] ++ (List.finRange 8).map .norm) s t

/-- 40_normalize_estimate.md R106: inside the calibrated span the result is within [0, 10000], with its
ends at the bounds; a channel with RANGE = 0 gives 5000 every time. -/
def Obligations.NormalizeStaysInScale : Prop :=
  ∀ (c : Cal) (raw : Half),
    (c.min.toNat < c.max.toNat → c.min.toNat ≤ raw.toNat → raw.toNat ≤ c.max.toNat →
      0 ≤ normalizeValue c raw ∧ normalizeValue c raw ≤ 10000) ∧
    (c.min.toNat < c.max.toNat → normalizeValue c c.min = 0 ∧ normalizeValue c c.max = 10000) ∧
    (c.min = c.max → normalizeValue c raw = 5000)

/-- 40_normalize_estimate.md R107: eight equal normalized values give OFFSET = 0, for any weights that meet
00_scope.md R6. -/
def Obligations.EqualChannelsGiveZeroOffset : Prop :=
  ∀ (s : State) (n : Int), (∀ i : Chan, Claims.normalized s.cal[i] (s.sampleRead i) = n) →
    ∃ t, exec .est s = .next t ∧ t.offset = 0#64

/-- 70_reset_and_hazards.md R206: bounds (V, V) make the channel degenerate: every later normalize of it gives
5000 and sets DEGEN. -/
def Obligations.EqualBoundsMakeTheChannelDegenerate : Prop :=
  ∀ (s : State) (i : Chan) (v : Half), ∃ t, memWrite (Reg.cal i).offset (v ++ v) s = .next t ∧
    ∀ cmd ∈ [Instr.norm i, .normi i], ∃ u, exec cmd t = .next u ∧
      u.normOut.toInt = 5000 ∧ u.flag .degen = true

/-! ## Steering controller -/

/-- 41_pid.md R126 (with R120 to R125): PID. -/
def Obligations.PidResult : Prop :=
  encode .pid = 0x00000003#32 ∧
  ∀ s : State, isFinite (i2f s.offset.toInt) = true ∧ ∃ t, exec .pid s = .next t ∧ Claims.ControllerStep s (i2f s.offset.toInt) s.dtIn t

/-- 41_pid.md R127 and R120 (with R121 to R125): PIDI. -/
def Obligations.PidiResult : Prop :=
  encode .pidi = 0x00000013#32 ∧
  ∀ s : State, ∃ t, exec .pidi s = .next t ∧ Claims.ControllerStep s s.errIn s.dtIn t

/-- 41_pid.md R121: the time-delta floor and its corner cases. -/
def Obligations.ClampedDeltaIsPositive : Prop :=
  ∀ x : F32,
    (fgt x 0x358637BD#32 = true → clampDt x = x) ∧
    (fgt x 0x358637BD#32 = false → clampDt x = 0x358637BD#32) ∧
    (isNaN x = true ∨ sign x = true ∨ mag x ≤ 0x358637BD → clampDt x = 0x358637BD#32) ∧
    clampDt 0x7F800000#32 = 0x7F800000#32 ∧
    isNaN (clampDt x) = false ∧ sign (clampDt x) = false ∧ 0x358637BD ≤ mag (clampDt x)

/-- 41_pid.md R122: the ceiling is one-sided: a sum of +∞ gives MAX_INTEGRAL, −∞ and NaN pass. -/
def Obligations.IntegralClampIsOneSided : Prop :=
  ∀ integral e dt : F32,
    let sum := fadd integral (fmul e dt)
    (sum = 0x7F800000#32 → nextIntegral integral e dt = 0x5F7FFFFF#32) ∧
    (sum = 0xFF800000#32 → nextIntegral integral e dt = 0xFF800000#32) ∧
    (isNaN sum = true → nextIntegral integral e dt = 0x7FC00000#32) ∧
    (sign sum = true → nextIntegral integral e dt = sum) ∧
    fgt (nextIntegral integral e dt) 0x5F7FFFFF#32 = false

/-- 41_pid.md R129: a NaN integral stays NaN, and −∞ stays −∞ unless e·dt is NaN or +∞ (the rule says
"finite e and dt"; where their product overflows to +∞, R122's own sum is NaN: log 12). -/
def Obligations.StuckIntegralStaysStuck : Prop :=
  ∀ (s t : State) (i : Instr) (e : F32), Claims.StepsController s i e → exec i s = .next t →
    (isNaN s.integral = true → isNaN t.integral = true) ∧
    (s.integral = 0xFF800000#32 → isNaN (fmul e (clampDt s.dtIn)) = false →
      fmul e (clampDt s.dtIn) ≠ 0x7F800000#32 → t.integral = 0xFF800000#32) ∧
    (s.integral = 0xFF800000#32 → isFinite e = true → isFinite s.dtIn = true →
      fmul e (clampDt s.dtIn) ≠ 0x7F800000#32 → t.integral = 0xFF800000#32)

/-- 41_pid.md R131: under a positive finite error and a finite dt, from a finite INTEGRAL that is at most
MAX_INTEGRAL, INTEGRAL never decreases and never exceeds MAX_INTEGRAL; it stays finite, so the same holds of
the next step. -/
def Obligations.IntegralNeverDecreasesUnderPositiveError : Prop :=
  ∀ (s t : State) (i : Instr) (e : F32), Claims.StepsController s i e → exec i s = .next t →
    isFinite e = true → sign e = false → 0 < mag e → isFinite (clampDt s.dtIn) = true →
    isFinite s.integral = true → scaled s.integral ≤ scaled 0x5F7FFFFF#32 →
    isFinite t.integral = true ∧ scaled s.integral ≤ scaled t.integral ∧
    scaled t.integral ≤ scaled 0x5F7FFFFF#32

/-- 41_pid.md R132: with e = ±0, finite gains, INTEGRAL = ±0 and a finite dt (an infinite one makes R122's
product NaN: log 12), INTEGRAL stays ±0, the correction is KD times the derivative kick, and it is ±0 once
PREV_ERROR is ±0. -/
def Obligations.ZeroErrorLeavesTheIntegralAtZero : Prop :=
  ∀ (s t : State) (i : Instr) (e : F32), Claims.StepsController s i e → exec i s = .next t →
    mag e = 0 → mag s.integral = 0 → isFinite s.kp = true → isFinite s.ki = true → isFinite s.kd = true →
    isFinite (clampDt s.dtIn) = true →
    let kick := fmul s.kd (fdiv (fsub e s.prevError) (clampDt s.dtIn))
    mag t.integral = 0 ∧ t.prevError = e ∧
    (isNaN kick = true → isNaN t.correction = true) ∧
    (isNaN kick = false → isNaN t.correction = false ∧ orderKey t.correction = orderKey kick) ∧
    (mag s.prevError = 0 → mag t.correction = 0)

/-- 41_pid.md R128: TDELTA. -/
def Obligations.TdeltaResult : Prop :=
  encode .tdelta = 0x00000005#32 ∧
  ∀ s : State, ∃ t, exec .tdelta s = .next t ∧
    (t.elapsed.toNat : Int) = ((s.tickIn.toNat : Int) - s.tickPrev.toNat) % 2 ^ 32 ∧
    t.tickPrev = s.tickIn ∧ OnlyChanges [.elapsed, .tickPrev] s t

/-- 30_encoding.md R91: `tick t` writes TICK_IN and runs TDELTA: ELAPSED is the time since the last one. -/
def Obligations.TickPseudoMeasuresElapsedTime : Prop :=
  ∀ (s : State) (v : Value), s.inReset = false → s.pending = [] →
    ∃ as t, programAccesses (Pseudo.expand (.tick v)) = some as ∧
      Sys2Proof.core.run 2 (s.enqueue as) = .next t ∧
      t.elapsed = v.toWord - s.tickPrev ∧ t.tickPrev = v.toWord ∧ t.tickIn = v.toWord

/-! ## Binary32 -/

/-- 00_scope.md R10 and 10_state.md R50: what a bit pattern stands for, by its sign [31], its exponent [30:23]
and its fraction [22:0], in units of 2^-149. The layout is IEEE 754's (log 11). -/
def Obligations.PatternsDenoteBinary32Values : Prop :=
  ∀ x : F32,
    let e := (x.extractLsb' 23 8).toNat
    let f := (x.extractLsb' 0 23).toNat
    let m : Nat := if e = 0 then f else (2 ^ 23 + f) * 2 ^ (e - 1)
    (isNaN x = true ↔ e = 255 ∧ f ≠ 0) ∧ (isInf x = true ↔ e = 255 ∧ f = 0) ∧ (isFinite x = true ↔ e ≠ 255) ∧
    sign x = x.getLsbD 31 ∧ (mag x = 0 ↔ e = 0 ∧ f = 0) ∧
    (isFinite x = true → scaled x = if x.getLsbD 31 then -(m : Int) else m)

/-- 00_scope.md R10: `f2i_trunc` of a finite value is that value rounded toward zero. -/
def Obligations.TruncationRoundsTowardZero : Prop :=
  ∀ x : F32, isFinite x = true → f2iTrunc x = Claims.truncated x

/-- 00_scope.md R10, where it only names the IEEE 754 operation: infinite operands, a zero divisor and the sign
of a zero, as IEEE 754 has them (log 11, PRESUMED). -/
def Obligations.InfiniteOperandsFollowIeee : Prop :=
  ∀ a b : F32,
    (isInf a = true → isFinite b = true →
      fadd a b = a ∧ fadd b a = a ∧ fsub a b = a ∧ isInf (fsub b a) = true ∧ sign (fsub b a) = !sign a ∧
      isInf (fdiv a b) = true ∧ sign (fdiv a b) = (sign a != sign b) ∧
      mag (fdiv b a) = 0 ∧ sign (fdiv b a) = (sign b != sign a)) ∧
    (isInf a = true → isInf b = true →
      fdiv a b = 0x7FC00000#32 ∧
      (sign a = sign b → fadd a b = a ∧ fsub a b = 0x7FC00000#32) ∧
      (sign a ≠ sign b → fadd a b = 0x7FC00000#32 ∧ fsub a b = a)) ∧
    (isInf a = true → isNaN b = false → mag b ≠ 0 →
      isInf (fmul a b) = true ∧ sign (fmul a b) = (sign a != sign b) ∧ fmul b a = fmul a b) ∧
    (isInf a = true → mag b = 0 → fmul a b = 0x7FC00000#32 ∧ fmul b a = 0x7FC00000#32) ∧
    (isFinite a = true → mag a ≠ 0 → mag b = 0 →
      isInf (fdiv a b) = true ∧ sign (fdiv a b) = (sign a != sign b)) ∧
    (mag a = 0 → mag b = 0 → fdiv a b = 0x7FC00000#32) ∧
    (isFinite a = true → isFinite b = true →
      sign (fmul a b) = (sign a != sign b) ∧ (mag b ≠ 0 → sign (fdiv a b) = (sign a != sign b)) ∧
      (scaled a + scaled b = 0 → fadd a b = if sign a && sign b then 0x80000000#32 else 0x00000000#32))

/-- 00_scope.md R10: on finite operands, fadd, fsub, fmul, fdiv and i2f give the exact result rounded to
nearest, ties to even, with gradual underflow; where a result overflows is IEEE 754's (log 11, PRESUMED). -/
def Obligations.ArithmeticRoundsToNearestEven : Prop :=
  (∀ a b : F32, isFinite a = true → isFinite b = true →
    Claims.RoundsTo (scaled a + scaled b) 1 (fadd a b) ∧
    Claims.RoundsTo (scaled a - scaled b) 1 (fsub a b) ∧
    Claims.RoundsTo (scaled a * scaled b) (2 ^ 149) (fmul a b) ∧
    (mag b ≠ 0 → Claims.RoundsTo (scaled a * 2 ^ 149 * (if sign b then -1 else 1)) (units (mag b)) (fdiv a b))) ∧
  ∀ n : Int, Claims.RoundsTo (n * 2 ^ 149) 1 (i2f n)

/-- 00_scope.md R10 and 41_pid.md R130: every NaN result of an operation is 0x7FC00000. -/
def Obligations.ArithmeticNaNIsCanonical : Prop :=
  ∀ a b : F32,
    (isNaN (fadd a b) = true → fadd a b = 0x7FC00000#32) ∧
    (isNaN (fsub a b) = true → fsub a b = 0x7FC00000#32) ∧
    (isNaN (fmul a b) = true → fmul a b = 0x7FC00000#32) ∧
    (isNaN (fdiv a b) = true → fdiv a b = 0x7FC00000#32) ∧
    (isNaN a = true ∨ isNaN b = true →
      fadd a b = 0x7FC00000#32 ∧ fsub a b = 0x7FC00000#32 ∧ fmul a b = 0x7FC00000#32 ∧ fdiv a b = 0x7FC00000#32)

/-- 00_scope.md R10: the ordered comparisons are false on a NaN and order finite values by value, with
−∞ below and +∞ above every finite value. R10 only names the IEEE 754 comparison: that +0 and −0 compare equal
and where the infinities stand is IEEE 754's (log 11, PRESUMED). -/
def Obligations.ComparisonsOrderByValue : Prop :=
  ∀ a b : F32,
    fgt a b = flt b a ∧
    (isNaN a = true ∨ isNaN b = true → flt a b = false) ∧
    (isFinite a = true → isFinite b = true → (flt a b = true ↔ scaled a < scaled b)) ∧
    (isFinite a = true → flt a 0x7F800000#32 = true ∧ flt 0xFF800000#32 a = true) ∧
    flt 0xFF800000#32 0x7F800000#32 = true ∧ flt a a = false

/-! ## Actuation mapper -/

/-- 42_actuation.md R143 (with R140 to R142, R147): MAP. -/
def Obligations.MapResult : Prop :=
  encode .map = 0x00000004#32 ∧
  ∀ s : State, ∃ t, exec .map s = .next t ∧ Claims.MapStep s s.correction t

/-- 42_actuation.md R144 (with R140 to R142, R147): MAPI. -/
def Obligations.MapiResult : Prop :=
  encode .mapi = 0x00000014#32 ∧
  ∀ s : State, ∃ t, exec .mapi s = .next t ∧ Claims.MapStep s s.corrIn t

/-- 42_actuation.md R145: after a map with a legal pair each duty is an integer in [NEUTRAL_SPEED, DUTY_MAX],
inside [−DUTY_MAX, DUTY_MAX], inside [−32767, 32767]. -/
def Obligations.DutyStaysInBounds : Prop :=
  ∀ (s t : State) (i : Instr), i = .map ∨ i = .mapi ∨ i = .loop → Claims.pairIsLegal s →
    exec i s = .next t →
    (∀ d ∈ [t.dutyL, t.dutyR], s.neutralSpeed.toInt ≤ d.toInt ∧ d.toInt ≤ s.dutyMax.toInt) ∧
    -s.dutyMax.toInt ≤ s.neutralSpeed.toInt ∧ s.dutyMax.toInt ≤ 32767

/-- 42_actuation.md R146, for MAP, MAPI and LOOP: a correction of one sign raises one motor and leaves the
other at the neutral speed; neither falls below it. -/
def Obligations.SteeringRaisesOneSideOnly : Prop :=
  ∀ (s t : State) (i : Instr) (c : F32), Claims.MapsCorrection s i c → Claims.pairIsLegal s →
    isNaN c = false → exec i s = .next t →
    let n := i2f s.neutralSpeed.toInt
    let h := i2f s.dutyMax.toInt
    (sign c = false ∨ mag c = 0 → t.dutyR.toInt = s.neutralSpeed.toInt ∧
      t.dutyL.toInt = Claims.truncated (if fgt (fadd n c) h then h else fadd n c)) ∧
    (sign c = true ∨ mag c = 0 → t.dutyL.toInt = s.neutralSpeed.toInt ∧
      t.dutyR.toInt = Claims.truncated (if fgt (fsub n c) h then h else fsub n c))

/-- 42_actuation.md R147: line A carries a positive duty's magnitude, line B a negative one's, and zero
disables both. -/
def Obligations.LinesShowSignAndMagnitude : Prop :=
  ∀ d : Int, -32767 ≤ d → d ≤ 32767 →
    (((lines d).extractLsb' 0 16).toNat : Int) = max d 0 ∧
    (((lines d).extractLsb' 16 16).toNat : Int) = max (-d) 0

/-- 42_actuation.md R148: with NEUTRAL_SPEED ≥ 0 no duty is negative and line B of both motors is 0 after a
map. -/
def Obligations.NonnegativeNeutralNeverReverses : Prop :=
  ∀ (s t : State) (i : Instr), i = .map ∨ i = .mapi ∨ i = .loop → Claims.pairIsLegal s →
    0 ≤ s.neutralSpeed.toInt → exec i s = .next t →
    0 ≤ t.dutyL.toInt ∧ 0 ≤ t.dutyR.toInt ∧
    t.pwmL.extractLsb' 16 16 = 0#16 ∧ t.pwmR.extractLsb' 16 16 = 0#16

/-! ## Sequencing and reset -/

/-- 43_sequencing.md R160: NOP changes nothing but CMD; any other word with OP = 0x0 (a reserved bit, S or CH
set) is illegal. -/
def Obligations.NopResult : Prop :=
  encode .nop = 0x00000000#32 ∧
  ∀ s : State, exec .nop s = .next s ∧ memWrite 0x00 0x00000000#32 s = .next { s with cmd := 0x00000000#32 } ∧
    ∀ w : Word, w.extractLsb' 0 4 = 0x0#4 → w ≠ 0x00000000#32 →
      execute w s = .next { s with status := s.status ||| 0b0001#4 }

/-- 43_sequencing.md R161: LOOP is the EST body, the controller step on the OFFSET just written, and the map
of the CORRECTION just written; an illegal pair stops only the map part. -/
def Obligations.LoopResult : Prop :=
  encode .loop = 0x00000006#32 ∧
  ∀ s : State, ∃ a b t, exec .est s = .next a ∧
    Claims.ControllerStep a (i2f a.offset.toInt) a.dtIn b ∧ Claims.MapStep b b.correction t ∧
    exec .loop s = .next t ∧
    OnlyChanges ([.offsetLo, .offsetHi, .integral, .prevError, .correction, .dutyL, .dutyR, .pwmL, .pwmR,
      .status] ++ (List.finRange 8).map .norm) s t

/-- 43_sequencing.md R161: LOOP gives the state that `cmd EST ; cmd PID ; cmd MAP` gives when the Sample
Source writes nothing meanwhile (CMD apart, which holds the last word, and SAMPLE's own free reads). -/
def Obligations.LoopEqualsEstPidMap : Prop :=
  ∀ (s t3 t1 : State) (d1 d2 d3 d : Vector Nat 8) (rest : List Input), s.inReset = false →
    s.pending = .access (commandWrite 0x00000002#32) ⟨[], d1⟩ :: .access (commandWrite 0x00000003#32) ⟨[], d2⟩ ::
      .access (commandWrite 0x00000004#32) ⟨[], d3⟩ :: rest →
    Sys2Proof.core.run 3 s = .next t3 →
    step { s with pending := .access (commandWrite 0x00000006#32) ⟨[], d⟩ :: rest } = .next t1 →
    t1.sample = t3.sample ∧ t1.pending = t3.pending ∧
    ∀ r : Reg, r ≠ .cmd → (∀ i, r ≠ .sample i) → t1.readReg r = t3.readReg r

/-- 70_reset_and_hazards.md R200: while reset is asserted no access is accepted; when it is released every
register holds its reset value, which is 0, and both lines of both motors are off. The first clause is in part
the model's choice (log 5): that an access made under reset, a misaligned one included, is a next state, and that
the registers keep their values until the release. The clauses about the release are R200's own. -/
def Obligations.ResetGivesTheResetValues : Prop :=
  (∀ (s : State) (a : Access) (w : Window) (rest : List Input),
    s.inReset = true → s.pending = .access a w :: rest →
    ∃ t, step s = .next t ∧ t.inReset = true ∧
      ∀ r : Reg, (∀ i, r ≠ .sample i) → t.readReg r = s.readReg r) ∧
  (∀ (s : State) (rest : List Input), s.inReset = true → s.pending = .resetRelease :: rest →
    ∃ t, step s = .next t ∧ t.inReset = false ∧ t.pending = rest ∧ t.motorPort = (0#32, 0#32) ∧
      ∀ r : Reg, (∀ i, r ≠ .sample i) → t.readReg r = 0#32) ∧
  (∀ r : Reg, (∀ i, r ≠ .sample i) → State.reset.readReg r = 0#32)

/-- 70_reset_and_hazards.md R200, the edges of the reset input: its assertion puts the block in reset. That the
registers keep their values then, and that a release of a line already released changes nothing, is the model's
choice (log 5). -/
def Obligations.AssertingResetPutsTheBlockInReset : Prop :=
  ∀ (s : State) (rest : List Input),
    (s.pending = .resetAssert :: rest →
      ∃ t, step s = .next t ∧ t.inReset = true ∧ t.pending = rest ∧ ∀ r : Reg, t.readReg r = s.readReg r) ∧
    (s.inReset = false → s.pending = .resetRelease :: rest → step s = .next { s with pending := rest })

/-- 70_reset_and_hazards.md R201: reset does not change the sample port. -/
def Obligations.ResetKeepsTheSamplePort : Prop :=
  ∀ (s t : State) (rest : List Input), s.pending = .resetAssert :: rest ∨ s.pending = .resetRelease :: rest →
    step s = .next t → t.sample = s.sample
end

