-- ==== Sys2Proof/Laws/Binary32.lean ====
section
/-! SUPPORT. The laws of the binary32 building blocks: patterns, the value of a magnitude, and rounding
(monotone, exact on representable values). -/

namespace Sys2Proof.Machine.Binary32

/-! ## Patterns -/

theorem sign_eq (x : F32) : sign x = decide (2 ^ 31 ≤ x.toNat) := by
  have h := BitVec.msb_eq_decide x
  rwa [BitVec.msb_eq_getLsbD_last] at h

theorem toNat_eq (x : F32) : x.toNat = (if sign x then 2 ^ 31 else 0) + mag x := by
  have := x.isLt
  rw [sign_eq, mag]
  by_cases h : 2 ^ 31 ≤ x.toNat <;> simp only [h, decide_true, decide_false, if_true] <;> simp <;> omega

theorem mag_lt (x : F32) : mag x < 2 ^ 31 := Nat.mod_lt _ (by decide)

/-- A pattern is its sign and its magnitude bits. -/
theorem eq_of_sign_mag {x y : F32} (hs : sign x = sign y) (hm : mag x = mag y) : x = y := by
  apply BitVec.eq_of_toNat_eq; rw [toNat_eq x, toNat_eq y, hs, hm]

theorem toNat_pack (neg : Bool) {m : Nat} (h : m < 2 ^ 31) :
    (pack neg m).toNat = (if neg then 2 ^ 31 else 0) + m := by
  cases neg <;> simp [pack] <;> omega

theorem mag_pack (neg : Bool) {m : Nat} (h : m < 2 ^ 31) : mag (pack neg m) = m := by
  rw [mag, toNat_pack neg h]; cases neg
  · simpa using h
  · simpa using h

theorem sign_pack (neg : Bool) {m : Nat} (h : m < 2 ^ 31) : sign (pack neg m) = neg := by
  rw [sign_eq, toNat_pack neg h]; cases neg <;> simp; omega

theorem pack_sign_mag (x : F32) : pack (sign x) (mag x) = x :=
  eq_of_sign_mag (sign_pack _ (mag_lt x)) (mag_pack _ (mag_lt x))

@[simp] theorem mag_negate (x : F32) : mag (negate x) = mag x := mag_pack _ (mag_lt x)

@[simp] theorem sign_negate (x : F32) : sign (negate x) = !sign x := sign_pack _ (mag_lt x)

/-- Every pattern is finite, infinite or a NaN. -/
theorem finite_or_inf_or_nan (x : F32) :
    (isFinite x = true ∧ isInf x = false ∧ isNaN x = false) ∨
    (isFinite x = false ∧ isInf x = true ∧ isNaN x = false) ∨
    (isFinite x = false ∧ isInf x = false ∧ isNaN x = true) := by
  simp only [isFinite, isInf, isNaN, decide_eq_true_eq, decide_eq_false_iff_not, beq_iff_eq, beq_eq_false_iff_ne]
  omega

/-! ## The value of a magnitude -/

/-- A magnitude's value: its 24-bit significand shifted left by its exponent. -/
theorem units_eq (m : Nat) : units m = (m - (m / 2 ^ 23 - 1) * 2 ^ 23) * 2 ^ (m / 2 ^ 23 - 1) := by
  unfold units
  split
  · rename_i h
    have : m / 2 ^ 23 - 1 = 0 := by omega
    rw [this]; simp
  · congr 1; omega

/-- The significand and exponent of a magnitude: for exponent k ≥ 1 the significand has 24 bits. -/
theorem units_split (m : Nat) : ∃ k f, m = k * 2 ^ 23 + f ∧ f < 2 ^ 24 ∧ (k ≠ 0 → 2 ^ 23 ≤ f) ∧
    units m = f * 2 ^ k := by
  refine ⟨m / 2 ^ 23 - 1, m - (m / 2 ^ 23 - 1) * 2 ^ 23, ?_, ?_, ?_, units_eq m⟩ <;> omega

/-- The pattern with significand `f` and exponent `k` has value f * 2^k. -/
theorem units_of_split {k f : Nat} (hf : f ≤ 2 ^ 24) (hk : k ≠ 0 → 2 ^ 23 ≤ f) :
    units (k * 2 ^ 23 + f) = f * 2 ^ k := by
  rw [units_eq]
  rcases Nat.lt_or_ge f (2 ^ 23) with h | h
  · have : k = 0 := by by_contra hc; exact absurd (hk hc) (by omega)
    subst this
    have : (0 * 2 ^ 23 + f) / 2 ^ 23 - 1 = 0 := by omega
    rw [this]; simp
  · rcases Nat.lt_or_ge f (2 ^ 24) with h' | h'
    · have : (k * 2 ^ 23 + f) / 2 ^ 23 - 1 = k := by omega
      rw [this]; congr 1; omega
    · have hf' : f = 2 ^ 24 := by omega
      subst hf'
      have : (k * 2 ^ 23 + 2 ^ 24) / 2 ^ 23 - 1 = k + 1 := by omega
      have e : k * 2 ^ 23 + 2 ^ 24 - (k + 1) * 2 ^ 23 = 2 ^ 23 := by omega
      rw [this, e, Nat.pow_succ 2 k]
      ring

/-- Larger magnitude bits mean a larger value. -/
theorem units_lt_succ (m : Nat) : units m < units (m + 1) := by
  obtain ⟨k, f, rfl, hf, hk, hu⟩ := units_split m
  rw [hu, Nat.add_assoc, units_of_split (by omega) (by intro h; have := hk h; omega)]
  exact Nat.mul_lt_mul_of_pos_right (Nat.lt_succ_self f) (Nat.two_pow_pos k)

theorem units_strictMono : StrictMono units := strictMono_nat_of_lt_succ units_lt_succ

theorem units_lt_iff {a b : Nat} : units a < units b ↔ a < b := units_strictMono.lt_iff_lt

theorem units_le_iff {a b : Nat} : units a ≤ units b ↔ a ≤ b := units_strictMono.le_iff_le

theorem units_inj {a b : Nat} : units a = units b ↔ a = b := units_strictMono.injective.eq_iff

@[simp] theorem units_zero : units 0 = 0 := rfl

theorem units_eq_zero {m : Nat} : units m = 0 ↔ m = 0 := by
  constructor
  · intro h; rw [← units_zero, units_inj] at h; exact h
  · rintro rfl; rfl

/-! ## Rounding to an integer -/

/-- `nearestEven n d` is within half of `n / d`. -/
theorem nearestEven_bounds (n : Nat) {d : Nat} (hd : 0 < d) :
    2 * n ≤ (2 * nearestEven n d + 1) * d ∧ 2 * nearestEven n d * d ≤ 2 * n + d := by
  have h := Nat.div_add_mod n d
  have hr := Nat.mod_lt n hd
  set q := n / d with hq
  set r := n % d with hr'
  have hn : n = d * q + r := h.symm
  have e : nearestEven n d = if 2 * r < d then q else if d < 2 * r then q + 1 else q + q % 2 := rfl
  have h2 : q % 2 = 0 ∨ q % 2 = 1 := by omega
  rw [e]
  split_ifs with h1 h3
  · constructor <;> nlinarith
  · constructor <;> nlinarith
  · rcases h2 with h2 | h2 <;> rw [h2] <;> constructor <;> nlinarith

/-- At a tie `nearestEven` is even. -/
theorem nearestEven_tie (n : Nat) {d : Nat} (hd : 0 < d)
    (h : 2 * n = (2 * nearestEven n d + 1) * d ∨ 2 * nearestEven n d * d = 2 * n + d) :
    nearestEven n d % 2 = 0 := by
  have hh := Nat.div_add_mod n d
  have hr := Nat.mod_lt n hd
  set q := n / d with hq
  set r := n % d with hr'
  have hn : n = d * q + r := hh.symm
  have e : nearestEven n d = if 2 * r < d then q else if d < 2 * r then q + 1 else q + q % 2 := rfl
  rw [e] at h ⊢
  split_ifs at h ⊢ with h1 h3
  · rcases h with h | h <;> exfalso <;> nlinarith
  · rcases h with h | h <;> exfalso <;> nlinarith
  · omega

/-- Rounding is monotone: n/d ≤ n'/d' gives the same order of the rounded values. -/
theorem nearestEven_mono {n d n' d' : Nat} (hd : 0 < d) (hd' : 0 < d') (h : n * d' ≤ n' * d) :
    nearestEven n d ≤ nearestEven n' d' := by
  by_contra hc
  push Not at hc
  obtain ⟨h1, h2⟩ := nearestEven_bounds n hd
  obtain ⟨h3, h4⟩ := nearestEven_bounds n' hd'
  have t1 := nearestEven_tie n hd
  have t2 := nearestEven_tie n' hd'
  set a := nearestEven n d
  set b := nearestEven n' d'
  have hdd : 0 < d * d' := Nat.mul_pos hd hd'
  -- 2 a d d' ≤ 2 n d' + d d' ≤ 2 n' d + d d' ≤ (2 b + 2) d d'
  have c1 : 2 * a * (d * d') ≤ 2 * (n * d') + d * d' := by nlinarith
  have c2 : 2 * (n' * d) ≤ (2 * b + 1) * (d * d') := by nlinarith
  have c3 : 2 * a * (d * d') ≤ (2 * b + 2) * (d * d') := by nlinarith
  have hab : 2 * a ≤ 2 * b + 2 := Nat.le_of_mul_le_mul_right c3 hdd
  have ha : a = b + 1 := by omega
  rw [ha] at c1 t1 h2
  have e1 : 2 * (b + 1) * d = 2 * n + d := by
    have : 2 * (b + 1) * d * d' = (2 * n + d) * d' := by nlinarith
    exact Nat.eq_of_mul_eq_mul_right hd' this
  have e2 : 2 * n' = (2 * b + 1) * d' := by
    have : 2 * n' * d = (2 * b + 1) * d' * d := by nlinarith
    exact Nat.eq_of_mul_eq_mul_right hd this
  have := t1 (Or.inr e1)
  have := t2 (Or.inl e2)
  omega

theorem nearestEven_exact (m : Nat) {d : Nat} (hd : 0 < d) : nearestEven (m * d) d = m := by
  simp [nearestEven, Nat.mul_div_cancel _ hd, hd]

/-! ## Rounding to a magnitude -/

theorem excessBits_eq_zero {q : Nat} : excessBits q = 0 ↔ q < 2 ^ 24 := by
  unfold excessBits
  split
  · rename_i h; exact ⟨fun _ => h, fun _ => rfl⟩
  · rename_i h
    have : 24 ≤ q.log2 := (Nat.le_log2 (by omega)).2 (by omega)
    omega

theorem excessBits_lt (q : Nat) : q < 2 ^ (excessBits q + 24) := by
  unfold excessBits
  split
  · simpa
  · rename_i h
    have h24 : 24 ≤ q.log2 := (Nat.le_log2 (by omega)).2 (by omega)
    have := Nat.lt_log2_self (n := q)
    rwa [show q.log2 - 23 + 24 = q.log2 + 1 by omega]

theorem excessBits_le {q : Nat} (h : excessBits q ≠ 0) : 2 ^ (excessBits q + 23) ≤ q := by
  have h' : ¬ q < 2 ^ 24 := fun hc => h (excessBits_eq_zero.2 hc)
  have e : excessBits q = q.log2 - 23 := if_neg h'
  have h24 : 24 ≤ q.log2 := (Nat.le_log2 (by omega)).2 (by omega)
  rw [e, show q.log2 - 23 + 23 = q.log2 by omega]
  exact Nat.log2_self_le (by omega)

theorem excessBits_mono {q q' : Nat} (h : q ≤ q') : excessBits q ≤ excessBits q' := by
  by_contra hc
  push Not at hc
  have h1 := excessBits_le (q := q) (by omega)
  have h2 := excessBits_lt q'
  have h3 : 2 ^ (excessBits q' + 24) ≤ 2 ^ (excessBits q + 23) := Nat.pow_le_pow_right (by decide) (by omega)
  omega

/-- The rounded magnitude before the overflow to infinity. -/
def roundWide (n d : Nat) : Nat :=
  excessBits (n / d) * 2 ^ 23 + nearestEven n (d * 2 ^ excessBits (n / d))

theorem roundMag_eq (n d : Nat) : roundMag n d = min (roundWide n d) infMag := rfl

theorem roundMag_le (n d : Nat) : roundMag n d ≤ infMag := Nat.min_le_right _ _

theorem roundMag_lt (n d : Nat) : roundMag n d < 2 ^ 31 := Nat.lt_of_le_of_lt (roundMag_le n d) (by decide)

/-- The significand of a rounded value lies between 2^23 (when bits were dropped) and 2^24. -/
theorem significand_bounds (n : Nat) {d : Nat} (hd : 0 < d) :
    nearestEven n (d * 2 ^ excessBits (n / d)) ≤ 2 ^ 24 ∧
    (excessBits (n / d) ≠ 0 → 2 ^ 23 ≤ nearestEven n (d * 2 ^ excessBits (n / d))) := by
  set k := excessBits (n / d) with hk
  have hp : 0 < d * 2 ^ k := Nat.mul_pos hd (Nat.two_pow_pos k)
  constructor
  · have h1 : n / d < 2 ^ (k + 24) := excessBits_lt _
    have h2 : n < 2 ^ (k + 24) * d := (Nat.div_lt_iff_lt_mul hd).1 h1
    calc nearestEven n (d * 2 ^ k)
        ≤ nearestEven (2 ^ 24 * (d * 2 ^ k)) (d * 2 ^ k) := by
          apply nearestEven_mono hp hp
          apply Nat.mul_le_mul_right
          calc n ≤ 2 ^ (k + 24) * d := h2.le
            _ = 2 ^ 24 * (d * 2 ^ k) := by rw [Nat.pow_add]; ring
      _ = 2 ^ 24 := nearestEven_exact _ hp
  · intro h0
    have h1 : 2 ^ (k + 23) ≤ n / d := excessBits_le h0
    have h2 : 2 ^ (k + 23) * d ≤ n := (Nat.le_div_iff_mul_le hd).1 h1
    calc 2 ^ 23 = nearestEven (2 ^ 23 * (d * 2 ^ k)) (d * 2 ^ k) := (nearestEven_exact _ hp).symm
      _ ≤ nearestEven n (d * 2 ^ k) := by
          apply nearestEven_mono hp hp
          apply Nat.mul_le_mul_right
          calc 2 ^ 23 * (d * 2 ^ k) = 2 ^ (k + 23) * d := by rw [Nat.pow_add]; ring
            _ ≤ n := h2

/-- The value of a rounded magnitude: its significand times its power of two. -/
theorem units_roundWide (n : Nat) {d : Nat} (hd : 0 < d) :
    units (roundWide n d) = nearestEven n (d * 2 ^ excessBits (n / d)) * 2 ^ excessBits (n / d) :=
  units_of_split (significand_bounds n hd).1 (significand_bounds n hd).2

theorem roundWide_mono {n d n' d' : Nat} (hd : 0 < d) (hd' : 0 < d') (h : n * d' ≤ n' * d) :
    roundWide n d ≤ roundWide n' d' := by
  have hq : n / d ≤ n' / d' := by
    rw [Nat.le_div_iff_mul_le hd']
    have h1 : n / d * d' * d ≤ n' * d := by
      calc n / d * d' * d = n / d * d * d' := by ring
        _ ≤ n * d' := Nat.mul_le_mul_right _ (Nat.div_mul_le_self n d)
        _ ≤ n' * d := h
    exact Nat.le_of_mul_le_mul_right h1 hd
  have hk := excessBits_mono hq
  have b := significand_bounds n hd
  have b' := significand_bounds n' hd'
  unfold roundWide
  rcases hk.eq_or_lt with e | l
  · rw [e]
    have := nearestEven_mono (n := n) (n' := n') (Nat.mul_pos hd (Nat.two_pow_pos (excessBits (n' / d'))))
      (Nat.mul_pos hd' (Nat.two_pow_pos (excessBits (n' / d'))))
      (by calc n * (d' * 2 ^ excessBits (n' / d')) = n * d' * 2 ^ excessBits (n' / d') := by ring
            _ ≤ n' * d * 2 ^ excessBits (n' / d') := Nat.mul_le_mul_right _ h
            _ = n' * (d * 2 ^ excessBits (n' / d')) := by ring)
    omega
  · have h1 := b.1
    have h2 := b'.2 (by omega)
    omega

/-- Rounding to a magnitude is monotone. -/
theorem roundMag_mono {n d n' d' : Nat} (hd : 0 < d) (hd' : 0 < d') (h : n * d' ≤ n' * d) :
    roundMag n d ≤ roundMag n' d' :=
  min_le_min_right _ (roundWide_mono hd hd' h)

/-- A value that is a magnitude rounds to that magnitude. -/
theorem roundWide_units (m : Nat) {d : Nat} (hd : 0 < d) : roundWide (units m * d) d = m := by
  obtain ⟨k, f, hm, hf, hk, hu⟩ := units_split m
  unfold roundWide
  rw [Nat.mul_div_cancel _ hd, hu]
  have e : excessBits (f * 2 ^ k) = k := by
    by_cases h0 : k = 0
    · subst h0; rw [excessBits_eq_zero]; simpa using hf
    · have h1 := hk h0
      have l1 : 2 ^ (k + 23) ≤ f * 2 ^ k := by
        rw [Nat.add_comm, Nat.pow_add]; exact Nat.mul_le_mul_right _ h1
      have l2 : f * 2 ^ k < 2 ^ (k + 24) := by
        rw [Nat.add_comm, Nat.pow_add]; exact Nat.mul_lt_mul_of_pos_right hf (Nat.two_pow_pos k)
      have a1 := excessBits_lt (f * 2 ^ k)
      have hlt : 2 ^ (k + 23) < 2 ^ (excessBits (f * 2 ^ k) + 24) := lt_of_le_of_lt l1 a1
      have := (Nat.pow_lt_pow_iff_right (by decide : 1 < 2)).1 hlt
      have a2 := excessBits_le (q := f * 2 ^ k) (by omega)
      have hlt' : 2 ^ (excessBits (f * 2 ^ k) + 23) < 2 ^ (k + 24) := lt_of_le_of_lt a2 l2
      have := (Nat.pow_lt_pow_iff_right (by decide : 1 < 2)).1 hlt'
      omega
  rw [e, show f * 2 ^ k * d = f * (d * 2 ^ k) by ring,
    nearestEven_exact _ (Nat.mul_pos hd (Nat.two_pow_pos k))]
  exact hm.symm

/-- A finite magnitude's value rounds to that magnitude. -/
theorem roundMag_units {m : Nat} (hm : m ≤ infMag) {d : Nat} (hd : 0 < d) : roundMag (units m * d) d = m := by
  rw [roundMag_eq, roundWide_units m hd]; exact Nat.min_eq_left hm

@[simp] theorem roundMag_zero {d : Nat} (hd : 0 < d) : roundMag 0 d = 0 := by
  have := roundMag_units (m := 0) (by decide) hd
  simpa using this

end Sys2Proof.Machine.Binary32
end

