-- ==== Sys2Proof/Laws/Binary32Order.lean ====
section
/-! SUPPORT. The order of binary32 values: `orderKey` against the exact value, and what addition and the
integer conversions do to it. -/

namespace Sys2Proof.Machine.Binary32

/-! ## `orderKey`, `scaled` and the classes -/

theorem isFinite_iff {x : F32} : isFinite x = true ↔ mag x < infMag := by simp [isFinite]

theorem isNaN_iff {x : F32} : isNaN x = true ↔ infMag < mag x := by simp [isNaN]

theorem isInf_iff {x : F32} : isInf x = true ↔ mag x = infMag := by simp [isInf]

theorem isNaN_of_isFinite {x : F32} (h : isFinite x = true) : isNaN x = false := by
  have h1 := isFinite_iff.1 h
  cases hn : isNaN x
  · rfl
  · exact absurd (isNaN_iff.1 hn) (by omega)

theorem isInf_of_isFinite {x : F32} (h : isFinite x = true) : isInf x = false := by
  have h1 := isFinite_iff.1 h
  cases hn : isInf x
  · rfl
  · exact absurd (isInf_iff.1 hn) (by omega)

/-- The order of values is the order of keys. -/
theorem orderKey_lt_iff {a b : F32} : orderKey a < orderKey b ↔ scaled a < scaled b := by
  unfold orderKey scaled
  have h1 := units_lt_iff (a := mag a) (b := mag b)
  have h2 := units_lt_iff (a := mag b) (b := mag a)
  have h3 := units_eq_zero (m := mag a)
  have h4 := units_eq_zero (m := mag b)
  cases sign a <;> cases sign b <;> simp only [if_true, Bool.false_eq_true, if_false] <;> omega

theorem orderKey_le_iff {a b : F32} : orderKey a ≤ orderKey b ↔ scaled a ≤ scaled b := by
  rw [← not_lt, ← not_lt, orderKey_lt_iff]

theorem orderKey_eq_iff {a b : F32} : orderKey a = orderKey b ↔ scaled a = scaled b := by
  have h1 := orderKey_le_iff (a := a) (b := b)
  have h2 := orderKey_le_iff (a := b) (b := a)
  omega

theorem orderKey_natAbs (x : F32) : (orderKey x).natAbs = mag x := by
  unfold orderKey; split <;> omega

theorem scaled_natAbs (x : F32) : (scaled x).natAbs = units (mag x) := by
  unfold scaled; split <;> omega

theorem isFinite_iff_key {x : F32} :
    isFinite x = true ↔ -(infMag : Int) < orderKey x ∧ orderKey x < infMag := by
  rw [isFinite_iff]; unfold orderKey; split <;> omega

theorem orderKey_pack (neg : Bool) {m : Nat} (h : m < 2 ^ 31) :
    orderKey (pack neg m) = if neg then -(m : Int) else (m : Int) := by
  unfold orderKey; rw [sign_pack neg h, mag_pack neg h]

theorem fgt_iff {a b : F32} : fgt a b = true ↔ isNaN a = false ∧ isNaN b = false ∧ orderKey b < orderKey a := by
  simp [fgt, and_assoc]

theorem flt_iff {a b : F32} : flt a b = true ↔ isNaN a = false ∧ isNaN b = false ∧ orderKey a < orderKey b := by
  simp [flt, and_assoc]

/-! ## Signed rounding -/

/-- The key of the exact value `z / d` units after rounding. -/
def roundKey (z : Int) (d : Nat) : Int :=
  if z < 0 then -(roundMag z.natAbs d : Int) else (roundMag z.natAbs d : Int)

theorem roundKey_mono {z z' : Int} {d d' : Nat} (hd : 0 < d) (hd' : 0 < d') (h : z * d' ≤ z' * d) :
    roundKey z d ≤ roundKey z' d' := by
  unfold roundKey
  have p1 : (0 : Int) < d := by exact_mod_cast hd
  have p2 : (0 : Int) < d' := by exact_mod_cast hd'
  split_ifs with h1 h2 h2
  · have : roundMag z'.natAbs d' ≤ roundMag z.natAbs d := by
      apply roundMag_mono hd' hd
      zify
      rw [abs_of_neg h1, abs_of_neg h2]
      nlinarith
    omega
  · omega
  · exfalso
    have : z * d' ≥ 0 := by apply mul_nonneg <;> omega
    have : z' * d < 0 := by nlinarith
    omega
  · have : roundMag z.natAbs d ≤ roundMag z'.natAbs d' := by
      apply roundMag_mono hd hd'
      zify
      rw [abs_of_nonneg (not_lt.1 h1), abs_of_nonneg (not_lt.1 h2)]
      nlinarith
    omega

/-- A representable value rounds to itself. -/
theorem roundKey_scaled {x : F32} (h : mag x ≤ infMag) : roundKey (scaled x) 1 = orderKey x := by
  have e : roundMag (scaled x).natAbs 1 = mag x := by
    rw [scaled_natAbs]; simpa using roundMag_units h Nat.one_pos
  unfold roundKey
  rw [e]
  unfold scaled orderKey
  have h0 := units_eq_zero (m := mag x)
  cases sign x <;> simp only [Bool.false_eq_true, if_true, if_false] <;> split_ifs <;> omega

@[simp] theorem roundKey_zero {d : Nat} (hd : 0 < d) : roundKey 0 d = 0 := by
  simp [roundKey, roundMag_zero hd]

theorem roundKey_neg (z : Int) {d : Nat} (hd : 0 < d) : roundKey (-z) d = -roundKey z d := by
  unfold roundKey
  rcases lt_trichotomy z 0 with h | h | h
  · rw [if_neg (by omega), if_pos h, Int.natAbs_neg]; omega
  · subst h; simp [roundMag_zero hd]
  · rw [if_pos (by omega), if_neg (by omega), Int.natAbs_neg]

theorem roundKey_le (z : Int) (d : Nat) : -(infMag : Int) ≤ roundKey z d ∧ roundKey z d ≤ infMag := by
  have := roundMag_le z.natAbs d
  unfold roundKey; split <;> omega

/-! ## Addition -/

/-- The sum of finite values is the rounded exact sum. -/
theorem orderKey_fadd {a b : F32} (ha : isFinite a = true) (hb : isFinite b = true) :
    orderKey (fadd a b) = roundKey (scaled a + scaled b) 1 ∧ isNaN (fadd a b) = false := by
  have e : fadd a b = if scaled a + scaled b = 0 then pack (sign a && sign b) 0
      else pack (decide (scaled a + scaled b < 0)) (roundMag (scaled a + scaled b).natAbs 1) := by
    simp [fadd, isNaN_of_isFinite ha, isNaN_of_isFinite hb, isInf_of_isFinite ha, isInf_of_isFinite hb]
  rw [e]
  split
  · rename_i h
    rw [h, roundKey_zero Nat.one_pos]
    constructor
    · rw [orderKey_pack _ (by decide)]; split <;> rfl
    · simp [isNaN, mag_pack]
  · constructor
    · rw [orderKey_pack _ (roundMag_lt _ _)]; simp [roundKey]
    · have := roundMag_le (scaled a + scaled b).natAbs 1
      simp [isNaN, mag_pack _ (roundMag_lt _ _)]; omega

@[simp] theorem scaled_negate (x : F32) : scaled (negate x) = -scaled x := by
  unfold scaled; rw [sign_negate, mag_negate]; cases sign x <;> simp

@[simp] theorem isFinite_negate (x : F32) : isFinite (negate x) = isFinite x := by simp [isFinite]

@[simp] theorem isNaN_negate (x : F32) : isNaN (negate x) = isNaN x := by simp [isNaN]

@[simp] theorem isInf_negate (x : F32) : isInf (negate x) = isInf x := by simp [isInf]

@[simp] theorem orderKey_negate (x : F32) : orderKey (negate x) = -orderKey x := by
  unfold orderKey; rw [sign_negate, mag_negate]; cases sign x <;> simp

/-- The difference of finite values is the rounded exact difference. -/
theorem orderKey_fsub {a b : F32} (ha : isFinite a = true) (hb : isFinite b = true) :
    orderKey (fsub a b) = roundKey (scaled a - scaled b) 1 ∧ isNaN (fsub a b) = false := by
  have := orderKey_fadd ha (b := negate b) (by simpa using hb)
  rwa [scaled_negate, ← sub_eq_add_neg] at this

/-- Adding an infinity to a finite value gives it. -/
theorem fadd_inf {a b : F32} (ha : isFinite a = true) (hb : isInf b = true) : fadd a b = b := by
  have : isNaN b = false := by simp [isNaN, isInf_iff.1 hb]
  simp [fadd, isNaN_of_isFinite ha, isInf_of_isFinite ha, hb, this]

/-! ## Conversions -/

theorem orderKey_i2f (n : Int) : orderKey (i2f n) = roundKey (n * 2 ^ 149) 1 := by
  unfold i2f
  rw [orderKey_pack _ (roundMag_lt _ _)]
  unfold roundKey
  have e : (n * 2 ^ 149).natAbs = n.natAbs * 2 ^ 149 := by rw [Int.natAbs_mul]; rfl
  have h : n * 2 ^ 149 < 0 ↔ n < 0 := by omega
  simp only [e, h, decide_eq_true_eq]

/-- An integer of at most 24 bits is represented exactly. -/
theorem roundWide_natCast {n : Nat} (h : n < 2 ^ 24) : units (roundWide (n * 2 ^ 149) 1) = n * 2 ^ 149 := by
  rw [units_roundWide _ Nat.one_pos, Nat.div_one, Nat.one_mul]
  have hk : excessBits (n * 2 ^ 149) ≤ 149 := by
    by_contra hc
    push Not at hc
    have h1 := excessBits_le (q := n * 2 ^ 149) (by omega)
    have h2 : n * 2 ^ 149 < 2 ^ 24 * 2 ^ 149 := Nat.mul_lt_mul_of_pos_right h (by positivity)
    have h3 : 2 ^ 24 * 2 ^ 149 ≤ 2 ^ (excessBits (n * 2 ^ 149) + 23) := by
      rw [← Nat.pow_add]; exact Nat.pow_le_pow_right (by decide) (by omega)
    omega
  set k := excessBits (n * 2 ^ 149)
  have e : n * 2 ^ 149 = n * 2 ^ (149 - k) * 2 ^ k := by
    rw [Nat.mul_assoc, ← Nat.pow_add, Nat.sub_add_cancel hk]
  conv_lhs => rw [e]
  rw [nearestEven_exact _ (Nat.two_pow_pos k)]
  exact e.symm

theorem mag_i2f_of_small {n : Int} (h : n.natAbs < 2 ^ 24) :
    mag (i2f n) < infMag ∧ scaled (i2f n) = n * 2 ^ 149 := by
  have hu := roundWide_natCast h
  have hlt : roundWide (n.natAbs * 2 ^ 149) 1 < infMag := by
    rw [← units_lt_iff, hu]
    calc n.natAbs * 2 ^ 149 < 2 ^ 24 * 2 ^ 149 := Nat.mul_lt_mul_of_pos_right h (by positivity)
      _ ≤ units infMag := by decide
  have e : roundMag (n.natAbs * 2 ^ 149) 1 = roundWide (n.natAbs * 2 ^ 149) 1 :=
    Nat.min_eq_left hlt.le
  have hm : mag (i2f n) = roundWide (n.natAbs * 2 ^ 149) 1 := by
    unfold i2f; rw [mag_pack _ (roundMag_lt _ _), e]
  refine ⟨by rw [hm]; exact hlt, ?_⟩
  have hs : sign (i2f n) = decide (n < 0) := by unfold i2f; rw [sign_pack _ (roundMag_lt _ _)]
  unfold scaled
  rw [hs, hm, hu]
  have hc : ((n.natAbs * 2 ^ 149 : Nat) : Int) = (n.natAbs : Int) * 2 ^ 149 := by push_cast; rfl
  rw [hc]
  by_cases hn : n < 0 <;> simp only [hn, decide_true, decide_false, if_true, Bool.false_eq_true, if_false] <;>
    omega

theorem isFinite_i2f {n : Int} (h : n.natAbs < 2 ^ 24) : isFinite (i2f n) = true :=
  isFinite_iff.2 (mag_i2f_of_small h).1

/-- `f2i_trunc` is the exact value over 2^149, rounded toward zero. -/
theorem f2iTrunc_eq (x : F32) : f2iTrunc x = Int.tdiv (scaled x) (2 ^ 149) := by
  unfold f2iTrunc scaled
  cases sign x
  · simp [Int.tdiv_eq_ediv_of_nonneg]
  · simp [Int.neg_tdiv, Int.tdiv_eq_ediv_of_nonneg]

theorem f2iTrunc_mono {x y : F32} (h : scaled x ≤ scaled y) : f2iTrunc x ≤ f2iTrunc y := by
  rw [f2iTrunc_eq, f2iTrunc_eq]; exact Int.tdiv_le_tdiv (by positivity) h

/-- Converting an integer of at most 24 bits there and back gives it. -/
theorem f2iTrunc_i2f {n : Int} (h : n.natAbs < 2 ^ 24) : f2iTrunc (i2f n) = n := by
  rw [f2iTrunc_eq, (mag_i2f_of_small h).2]; exact Int.mul_tdiv_cancel _ (by positivity)

end Sys2Proof.Machine.Binary32
end

