-- ==== Sys2Proof/Laws/State.lean ====
section
/-! SUPPORT. One lemma per field for each update of State that the commands and the bus share: what it writes,
and that it leaves the field alone. -/

namespace Sys2Proof.Machine

/-! ## `raise` -/

@[simp] theorem State.raise_cmd (s : State) (f : Flag) : (s.raise f).cmd = s.cmd := rfl
@[simp] theorem State.raise_status (s : State) (f : Flag) : (s.raise f).status = s.status ||| f.mask := rfl
@[simp] theorem State.raise_opa (s : State) (f : Flag) : (s.raise f).opa = s.opa := rfl
@[simp] theorem State.raise_errIn (s : State) (f : Flag) : (s.raise f).errIn = s.errIn := rfl
@[simp] theorem State.raise_dtIn (s : State) (f : Flag) : (s.raise f).dtIn = s.dtIn := rfl
@[simp] theorem State.raise_corrIn (s : State) (f : Flag) : (s.raise f).corrIn = s.corrIn := rfl
@[simp] theorem State.raise_tickIn (s : State) (f : Flag) : (s.raise f).tickIn = s.tickIn := rfl
@[simp] theorem State.raise_kp (s : State) (f : Flag) : (s.raise f).kp = s.kp := rfl
@[simp] theorem State.raise_ki (s : State) (f : Flag) : (s.raise f).ki = s.ki := rfl
@[simp] theorem State.raise_kd (s : State) (f : Flag) : (s.raise f).kd = s.kd := rfl
@[simp] theorem State.raise_neutralSpeed (s : State) (f : Flag) : (s.raise f).neutralSpeed = s.neutralSpeed := rfl
@[simp] theorem State.raise_dutyMax (s : State) (f : Flag) : (s.raise f).dutyMax = s.dutyMax := rfl
@[simp] theorem State.raise_cal (s : State) (f : Flag) : (s.raise f).cal = s.cal := rfl
@[simp] theorem State.raise_integral (s : State) (f : Flag) : (s.raise f).integral = s.integral := rfl
@[simp] theorem State.raise_prevError (s : State) (f : Flag) : (s.raise f).prevError = s.prevError := rfl
@[simp] theorem State.raise_tickPrev (s : State) (f : Flag) : (s.raise f).tickPrev = s.tickPrev := rfl
@[simp] theorem State.raise_elapsed (s : State) (f : Flag) : (s.raise f).elapsed = s.elapsed := rfl
@[simp] theorem State.raise_correction (s : State) (f : Flag) : (s.raise f).correction = s.correction := rfl
@[simp] theorem State.raise_normOut (s : State) (f : Flag) : (s.raise f).normOut = s.normOut := rfl
@[simp] theorem State.raise_norm (s : State) (f : Flag) : (s.raise f).norm = s.norm := rfl
@[simp] theorem State.raise_offset (s : State) (f : Flag) : (s.raise f).offset = s.offset := rfl
@[simp] theorem State.raise_dutyL (s : State) (f : Flag) : (s.raise f).dutyL = s.dutyL := rfl
@[simp] theorem State.raise_dutyR (s : State) (f : Flag) : (s.raise f).dutyR = s.dutyR := rfl
@[simp] theorem State.raise_pwmL (s : State) (f : Flag) : (s.raise f).pwmL = s.pwmL := rfl
@[simp] theorem State.raise_pwmR (s : State) (f : Flag) : (s.raise f).pwmR = s.pwmR := rfl
@[simp] theorem State.raise_sample (s : State) (f : Flag) : (s.raise f).sample = s.sample := rfl
@[simp] theorem State.raise_inReset (s : State) (f : Flag) : (s.raise f).inReset = s.inReset := rfl
@[simp] theorem State.raise_window (s : State) (f : Flag) : (s.raise f).window = s.window := rfl
@[simp] theorem State.raise_response (s : State) (f : Flag) : (s.raise f).response = s.response := rfl
@[simp] theorem State.raise_pending (s : State) (f : Flag) : (s.raise f).pending = s.pending := rfl
@[simp] theorem State.raise_freeCount (s : State) (f : Flag) : (s.raise f).freeCount = s.freeCount := rfl

/-! ## `raiseIf` -/

@[simp] theorem State.raiseIf_cmd (s : State) (c : Bool) (f : Flag) : (s.raiseIf c f).cmd = s.cmd := rfl
@[simp] theorem State.raiseIf_status (s : State) (c : Bool) (f : Flag) : (s.raiseIf c f).status = if c then s.status ||| f.mask else s.status := rfl
@[simp] theorem State.raiseIf_opa (s : State) (c : Bool) (f : Flag) : (s.raiseIf c f).opa = s.opa := rfl
@[simp] theorem State.raiseIf_errIn (s : State) (c : Bool) (f : Flag) : (s.raiseIf c f).errIn = s.errIn := rfl
@[simp] theorem State.raiseIf_dtIn (s : State) (c : Bool) (f : Flag) : (s.raiseIf c f).dtIn = s.dtIn := rfl
@[simp] theorem State.raiseIf_corrIn (s : State) (c : Bool) (f : Flag) : (s.raiseIf c f).corrIn = s.corrIn := rfl
@[simp] theorem State.raiseIf_tickIn (s : State) (c : Bool) (f : Flag) : (s.raiseIf c f).tickIn = s.tickIn := rfl
@[simp] theorem State.raiseIf_kp (s : State) (c : Bool) (f : Flag) : (s.raiseIf c f).kp = s.kp := rfl
@[simp] theorem State.raiseIf_ki (s : State) (c : Bool) (f : Flag) : (s.raiseIf c f).ki = s.ki := rfl
@[simp] theorem State.raiseIf_kd (s : State) (c : Bool) (f : Flag) : (s.raiseIf c f).kd = s.kd := rfl
@[simp] theorem State.raiseIf_neutralSpeed (s : State) (c : Bool) (f : Flag) : (s.raiseIf c f).neutralSpeed = s.neutralSpeed := rfl
@[simp] theorem State.raiseIf_dutyMax (s : State) (c : Bool) (f : Flag) : (s.raiseIf c f).dutyMax = s.dutyMax := rfl
@[simp] theorem State.raiseIf_cal (s : State) (c : Bool) (f : Flag) : (s.raiseIf c f).cal = s.cal := rfl
@[simp] theorem State.raiseIf_integral (s : State) (c : Bool) (f : Flag) : (s.raiseIf c f).integral = s.integral := rfl
@[simp] theorem State.raiseIf_prevError (s : State) (c : Bool) (f : Flag) : (s.raiseIf c f).prevError = s.prevError := rfl
@[simp] theorem State.raiseIf_tickPrev (s : State) (c : Bool) (f : Flag) : (s.raiseIf c f).tickPrev = s.tickPrev := rfl
@[simp] theorem State.raiseIf_elapsed (s : State) (c : Bool) (f : Flag) : (s.raiseIf c f).elapsed = s.elapsed := rfl
@[simp] theorem State.raiseIf_correction (s : State) (c : Bool) (f : Flag) : (s.raiseIf c f).correction = s.correction := rfl
@[simp] theorem State.raiseIf_normOut (s : State) (c : Bool) (f : Flag) : (s.raiseIf c f).normOut = s.normOut := rfl
@[simp] theorem State.raiseIf_norm (s : State) (c : Bool) (f : Flag) : (s.raiseIf c f).norm = s.norm := rfl
@[simp] theorem State.raiseIf_offset (s : State) (c : Bool) (f : Flag) : (s.raiseIf c f).offset = s.offset := rfl
@[simp] theorem State.raiseIf_dutyL (s : State) (c : Bool) (f : Flag) : (s.raiseIf c f).dutyL = s.dutyL := rfl
@[simp] theorem State.raiseIf_dutyR (s : State) (c : Bool) (f : Flag) : (s.raiseIf c f).dutyR = s.dutyR := rfl
@[simp] theorem State.raiseIf_pwmL (s : State) (c : Bool) (f : Flag) : (s.raiseIf c f).pwmL = s.pwmL := rfl
@[simp] theorem State.raiseIf_pwmR (s : State) (c : Bool) (f : Flag) : (s.raiseIf c f).pwmR = s.pwmR := rfl
@[simp] theorem State.raiseIf_sample (s : State) (c : Bool) (f : Flag) : (s.raiseIf c f).sample = s.sample := rfl
@[simp] theorem State.raiseIf_inReset (s : State) (c : Bool) (f : Flag) : (s.raiseIf c f).inReset = s.inReset := rfl
@[simp] theorem State.raiseIf_window (s : State) (c : Bool) (f : Flag) : (s.raiseIf c f).window = s.window := rfl
@[simp] theorem State.raiseIf_response (s : State) (c : Bool) (f : Flag) : (s.raiseIf c f).response = s.response := rfl
@[simp] theorem State.raiseIf_pending (s : State) (c : Bool) (f : Flag) : (s.raiseIf c f).pending = s.pending := rfl
@[simp] theorem State.raiseIf_freeCount (s : State) (c : Bool) (f : Flag) : (s.raiseIf c f).freeCount = s.freeCount := rfl

/-! ## `clearFlags` -/

@[simp] theorem State.clearFlags_cmd (s : State) (v : Word) : (s.clearFlags v).cmd = s.cmd := rfl
@[simp] theorem State.clearFlags_status (s : State) (v : Word) : (s.clearFlags v).status = s.status &&& ~~~(v.extractLsb' 0 4) := rfl
@[simp] theorem State.clearFlags_opa (s : State) (v : Word) : (s.clearFlags v).opa = s.opa := rfl
@[simp] theorem State.clearFlags_errIn (s : State) (v : Word) : (s.clearFlags v).errIn = s.errIn := rfl
@[simp] theorem State.clearFlags_dtIn (s : State) (v : Word) : (s.clearFlags v).dtIn = s.dtIn := rfl
@[simp] theorem State.clearFlags_corrIn (s : State) (v : Word) : (s.clearFlags v).corrIn = s.corrIn := rfl
@[simp] theorem State.clearFlags_tickIn (s : State) (v : Word) : (s.clearFlags v).tickIn = s.tickIn := rfl
@[simp] theorem State.clearFlags_kp (s : State) (v : Word) : (s.clearFlags v).kp = s.kp := rfl
@[simp] theorem State.clearFlags_ki (s : State) (v : Word) : (s.clearFlags v).ki = s.ki := rfl
@[simp] theorem State.clearFlags_kd (s : State) (v : Word) : (s.clearFlags v).kd = s.kd := rfl
@[simp] theorem State.clearFlags_neutralSpeed (s : State) (v : Word) : (s.clearFlags v).neutralSpeed = s.neutralSpeed := rfl
@[simp] theorem State.clearFlags_dutyMax (s : State) (v : Word) : (s.clearFlags v).dutyMax = s.dutyMax := rfl
@[simp] theorem State.clearFlags_cal (s : State) (v : Word) : (s.clearFlags v).cal = s.cal := rfl
@[simp] theorem State.clearFlags_integral (s : State) (v : Word) : (s.clearFlags v).integral = s.integral := rfl
@[simp] theorem State.clearFlags_prevError (s : State) (v : Word) : (s.clearFlags v).prevError = s.prevError := rfl
@[simp] theorem State.clearFlags_tickPrev (s : State) (v : Word) : (s.clearFlags v).tickPrev = s.tickPrev := rfl
@[simp] theorem State.clearFlags_elapsed (s : State) (v : Word) : (s.clearFlags v).elapsed = s.elapsed := rfl
@[simp] theorem State.clearFlags_correction (s : State) (v : Word) : (s.clearFlags v).correction = s.correction := rfl
@[simp] theorem State.clearFlags_normOut (s : State) (v : Word) : (s.clearFlags v).normOut = s.normOut := rfl
@[simp] theorem State.clearFlags_norm (s : State) (v : Word) : (s.clearFlags v).norm = s.norm := rfl
@[simp] theorem State.clearFlags_offset (s : State) (v : Word) : (s.clearFlags v).offset = s.offset := rfl
@[simp] theorem State.clearFlags_dutyL (s : State) (v : Word) : (s.clearFlags v).dutyL = s.dutyL := rfl
@[simp] theorem State.clearFlags_dutyR (s : State) (v : Word) : (s.clearFlags v).dutyR = s.dutyR := rfl
@[simp] theorem State.clearFlags_pwmL (s : State) (v : Word) : (s.clearFlags v).pwmL = s.pwmL := rfl
@[simp] theorem State.clearFlags_pwmR (s : State) (v : Word) : (s.clearFlags v).pwmR = s.pwmR := rfl
@[simp] theorem State.clearFlags_sample (s : State) (v : Word) : (s.clearFlags v).sample = s.sample := rfl
@[simp] theorem State.clearFlags_inReset (s : State) (v : Word) : (s.clearFlags v).inReset = s.inReset := rfl
@[simp] theorem State.clearFlags_window (s : State) (v : Word) : (s.clearFlags v).window = s.window := rfl
@[simp] theorem State.clearFlags_response (s : State) (v : Word) : (s.clearFlags v).response = s.response := rfl
@[simp] theorem State.clearFlags_pending (s : State) (v : Word) : (s.clearFlags v).pending = s.pending := rfl
@[simp] theorem State.clearFlags_freeCount (s : State) (v : Word) : (s.clearFlags v).freeCount = s.freeCount := rfl

/-! ## `openWindow` -/

@[simp] theorem State.openWindow_cmd (s : State) (w : Window) : (s.openWindow w).cmd = s.cmd := rfl
@[simp] theorem State.openWindow_status (s : State) (w : Window) : (s.openWindow w).status = s.status := rfl
@[simp] theorem State.openWindow_opa (s : State) (w : Window) : (s.openWindow w).opa = s.opa := rfl
@[simp] theorem State.openWindow_errIn (s : State) (w : Window) : (s.openWindow w).errIn = s.errIn := rfl
@[simp] theorem State.openWindow_dtIn (s : State) (w : Window) : (s.openWindow w).dtIn = s.dtIn := rfl
@[simp] theorem State.openWindow_corrIn (s : State) (w : Window) : (s.openWindow w).corrIn = s.corrIn := rfl
@[simp] theorem State.openWindow_tickIn (s : State) (w : Window) : (s.openWindow w).tickIn = s.tickIn := rfl
@[simp] theorem State.openWindow_kp (s : State) (w : Window) : (s.openWindow w).kp = s.kp := rfl
@[simp] theorem State.openWindow_ki (s : State) (w : Window) : (s.openWindow w).ki = s.ki := rfl
@[simp] theorem State.openWindow_kd (s : State) (w : Window) : (s.openWindow w).kd = s.kd := rfl
@[simp] theorem State.openWindow_neutralSpeed (s : State) (w : Window) : (s.openWindow w).neutralSpeed = s.neutralSpeed := rfl
@[simp] theorem State.openWindow_dutyMax (s : State) (w : Window) : (s.openWindow w).dutyMax = s.dutyMax := rfl
@[simp] theorem State.openWindow_cal (s : State) (w : Window) : (s.openWindow w).cal = s.cal := rfl
@[simp] theorem State.openWindow_integral (s : State) (w : Window) : (s.openWindow w).integral = s.integral := rfl
@[simp] theorem State.openWindow_prevError (s : State) (w : Window) : (s.openWindow w).prevError = s.prevError := rfl
@[simp] theorem State.openWindow_tickPrev (s : State) (w : Window) : (s.openWindow w).tickPrev = s.tickPrev := rfl
@[simp] theorem State.openWindow_elapsed (s : State) (w : Window) : (s.openWindow w).elapsed = s.elapsed := rfl
@[simp] theorem State.openWindow_correction (s : State) (w : Window) : (s.openWindow w).correction = s.correction := rfl
@[simp] theorem State.openWindow_normOut (s : State) (w : Window) : (s.openWindow w).normOut = s.normOut := rfl
@[simp] theorem State.openWindow_norm (s : State) (w : Window) : (s.openWindow w).norm = s.norm := rfl
@[simp] theorem State.openWindow_offset (s : State) (w : Window) : (s.openWindow w).offset = s.offset := rfl
@[simp] theorem State.openWindow_dutyL (s : State) (w : Window) : (s.openWindow w).dutyL = s.dutyL := rfl
@[simp] theorem State.openWindow_dutyR (s : State) (w : Window) : (s.openWindow w).dutyR = s.dutyR := rfl
@[simp] theorem State.openWindow_pwmL (s : State) (w : Window) : (s.openWindow w).pwmL = s.pwmL := rfl
@[simp] theorem State.openWindow_pwmR (s : State) (w : Window) : (s.openWindow w).pwmR = s.pwmR := rfl
@[simp] theorem State.openWindow_sample (s : State) (w : Window) : (s.openWindow w).sample = s.sample := rfl
@[simp] theorem State.openWindow_inReset (s : State) (w : Window) : (s.openWindow w).inReset = s.inReset := rfl
@[simp] theorem State.openWindow_window (s : State) (w : Window) : (s.openWindow w).window = w := rfl
@[simp] theorem State.openWindow_response (s : State) (w : Window) : (s.openWindow w).response = s.response := rfl
@[simp] theorem State.openWindow_pending (s : State) (w : Window) : (s.openWindow w).pending = s.pending := rfl
@[simp] theorem State.openWindow_freeCount (s : State) (w : Window) : (s.openWindow w).freeCount = s.freeCount := rfl

/-! ## `closeWindow` -/

@[simp] theorem State.closeWindow_cmd (s : State) : (s.closeWindow).cmd = s.cmd := rfl
@[simp] theorem State.closeWindow_status (s : State) : (s.closeWindow).status = s.status := rfl
@[simp] theorem State.closeWindow_opa (s : State) : (s.closeWindow).opa = s.opa := rfl
@[simp] theorem State.closeWindow_errIn (s : State) : (s.closeWindow).errIn = s.errIn := rfl
@[simp] theorem State.closeWindow_dtIn (s : State) : (s.closeWindow).dtIn = s.dtIn := rfl
@[simp] theorem State.closeWindow_corrIn (s : State) : (s.closeWindow).corrIn = s.corrIn := rfl
@[simp] theorem State.closeWindow_tickIn (s : State) : (s.closeWindow).tickIn = s.tickIn := rfl
@[simp] theorem State.closeWindow_kp (s : State) : (s.closeWindow).kp = s.kp := rfl
@[simp] theorem State.closeWindow_ki (s : State) : (s.closeWindow).ki = s.ki := rfl
@[simp] theorem State.closeWindow_kd (s : State) : (s.closeWindow).kd = s.kd := rfl
@[simp] theorem State.closeWindow_neutralSpeed (s : State) : (s.closeWindow).neutralSpeed = s.neutralSpeed := rfl
@[simp] theorem State.closeWindow_dutyMax (s : State) : (s.closeWindow).dutyMax = s.dutyMax := rfl
@[simp] theorem State.closeWindow_cal (s : State) : (s.closeWindow).cal = s.cal := rfl
@[simp] theorem State.closeWindow_integral (s : State) : (s.closeWindow).integral = s.integral := rfl
@[simp] theorem State.closeWindow_prevError (s : State) : (s.closeWindow).prevError = s.prevError := rfl
@[simp] theorem State.closeWindow_tickPrev (s : State) : (s.closeWindow).tickPrev = s.tickPrev := rfl
@[simp] theorem State.closeWindow_elapsed (s : State) : (s.closeWindow).elapsed = s.elapsed := rfl
@[simp] theorem State.closeWindow_correction (s : State) : (s.closeWindow).correction = s.correction := rfl
@[simp] theorem State.closeWindow_normOut (s : State) : (s.closeWindow).normOut = s.normOut := rfl
@[simp] theorem State.closeWindow_norm (s : State) : (s.closeWindow).norm = s.norm := rfl
@[simp] theorem State.closeWindow_offset (s : State) : (s.closeWindow).offset = s.offset := rfl
@[simp] theorem State.closeWindow_dutyL (s : State) : (s.closeWindow).dutyL = s.dutyL := rfl
@[simp] theorem State.closeWindow_dutyR (s : State) : (s.closeWindow).dutyR = s.dutyR := rfl
@[simp] theorem State.closeWindow_pwmL (s : State) : (s.closeWindow).pwmL = s.pwmL := rfl
@[simp] theorem State.closeWindow_pwmR (s : State) : (s.closeWindow).pwmR = s.pwmR := rfl
@[simp] theorem State.closeWindow_sample (s : State) : (s.closeWindow).sample = s.window.writes.foldl writePort s.sample := rfl
@[simp] theorem State.closeWindow_inReset (s : State) : (s.closeWindow).inReset = s.inReset := rfl
@[simp] theorem State.closeWindow_window (s : State) : (s.closeWindow).window = Window.quiet := rfl
@[simp] theorem State.closeWindow_response (s : State) : (s.closeWindow).response = s.response := rfl
@[simp] theorem State.closeWindow_pending (s : State) : (s.closeWindow).pending = s.pending := rfl
@[simp] theorem State.closeWindow_freeCount (s : State) : (s.closeWindow).freeCount = s.freeCount + 1 := rfl

/-! ## `applySamples` -/

@[simp] theorem State.applySamples_cmd (s : State) (ws : List SampleWrite) : (s.applySamples ws).cmd = s.cmd := rfl
@[simp] theorem State.applySamples_status (s : State) (ws : List SampleWrite) : (s.applySamples ws).status = s.status := rfl
@[simp] theorem State.applySamples_opa (s : State) (ws : List SampleWrite) : (s.applySamples ws).opa = s.opa := rfl
@[simp] theorem State.applySamples_errIn (s : State) (ws : List SampleWrite) : (s.applySamples ws).errIn = s.errIn := rfl
@[simp] theorem State.applySamples_dtIn (s : State) (ws : List SampleWrite) : (s.applySamples ws).dtIn = s.dtIn := rfl
@[simp] theorem State.applySamples_corrIn (s : State) (ws : List SampleWrite) : (s.applySamples ws).corrIn = s.corrIn := rfl
@[simp] theorem State.applySamples_tickIn (s : State) (ws : List SampleWrite) : (s.applySamples ws).tickIn = s.tickIn := rfl
@[simp] theorem State.applySamples_kp (s : State) (ws : List SampleWrite) : (s.applySamples ws).kp = s.kp := rfl
@[simp] theorem State.applySamples_ki (s : State) (ws : List SampleWrite) : (s.applySamples ws).ki = s.ki := rfl
@[simp] theorem State.applySamples_kd (s : State) (ws : List SampleWrite) : (s.applySamples ws).kd = s.kd := rfl
@[simp] theorem State.applySamples_neutralSpeed (s : State) (ws : List SampleWrite) : (s.applySamples ws).neutralSpeed = s.neutralSpeed := rfl
@[simp] theorem State.applySamples_dutyMax (s : State) (ws : List SampleWrite) : (s.applySamples ws).dutyMax = s.dutyMax := rfl
@[simp] theorem State.applySamples_cal (s : State) (ws : List SampleWrite) : (s.applySamples ws).cal = s.cal := rfl
@[simp] theorem State.applySamples_integral (s : State) (ws : List SampleWrite) : (s.applySamples ws).integral = s.integral := rfl
@[simp] theorem State.applySamples_prevError (s : State) (ws : List SampleWrite) : (s.applySamples ws).prevError = s.prevError := rfl
@[simp] theorem State.applySamples_tickPrev (s : State) (ws : List SampleWrite) : (s.applySamples ws).tickPrev = s.tickPrev := rfl
@[simp] theorem State.applySamples_elapsed (s : State) (ws : List SampleWrite) : (s.applySamples ws).elapsed = s.elapsed := rfl
@[simp] theorem State.applySamples_correction (s : State) (ws : List SampleWrite) : (s.applySamples ws).correction = s.correction := rfl
@[simp] theorem State.applySamples_normOut (s : State) (ws : List SampleWrite) : (s.applySamples ws).normOut = s.normOut := rfl
@[simp] theorem State.applySamples_norm (s : State) (ws : List SampleWrite) : (s.applySamples ws).norm = s.norm := rfl
@[simp] theorem State.applySamples_offset (s : State) (ws : List SampleWrite) : (s.applySamples ws).offset = s.offset := rfl
@[simp] theorem State.applySamples_dutyL (s : State) (ws : List SampleWrite) : (s.applySamples ws).dutyL = s.dutyL := rfl
@[simp] theorem State.applySamples_dutyR (s : State) (ws : List SampleWrite) : (s.applySamples ws).dutyR = s.dutyR := rfl
@[simp] theorem State.applySamples_pwmL (s : State) (ws : List SampleWrite) : (s.applySamples ws).pwmL = s.pwmL := rfl
@[simp] theorem State.applySamples_pwmR (s : State) (ws : List SampleWrite) : (s.applySamples ws).pwmR = s.pwmR := rfl
@[simp] theorem State.applySamples_sample (s : State) (ws : List SampleWrite) : (s.applySamples ws).sample = ws.foldl writePort s.sample := rfl
@[simp] theorem State.applySamples_inReset (s : State) (ws : List SampleWrite) : (s.applySamples ws).inReset = s.inReset := rfl
@[simp] theorem State.applySamples_window (s : State) (ws : List SampleWrite) : (s.applySamples ws).window = s.window := rfl
@[simp] theorem State.applySamples_response (s : State) (ws : List SampleWrite) : (s.applySamples ws).response = s.response := rfl
@[simp] theorem State.applySamples_pending (s : State) (ws : List SampleWrite) : (s.applySamples ws).pending = s.pending := rfl
@[simp] theorem State.applySamples_freeCount (s : State) (ws : List SampleWrite) : (s.applySamples ws).freeCount = s.freeCount := rfl

/-! ## `answer` -/

@[simp] theorem State.answer_cmd (s : State) (r : Response) : (s.answer r).cmd = s.cmd := rfl
@[simp] theorem State.answer_status (s : State) (r : Response) : (s.answer r).status = s.status := rfl
@[simp] theorem State.answer_opa (s : State) (r : Response) : (s.answer r).opa = s.opa := rfl
@[simp] theorem State.answer_errIn (s : State) (r : Response) : (s.answer r).errIn = s.errIn := rfl
@[simp] theorem State.answer_dtIn (s : State) (r : Response) : (s.answer r).dtIn = s.dtIn := rfl
@[simp] theorem State.answer_corrIn (s : State) (r : Response) : (s.answer r).corrIn = s.corrIn := rfl
@[simp] theorem State.answer_tickIn (s : State) (r : Response) : (s.answer r).tickIn = s.tickIn := rfl
@[simp] theorem State.answer_kp (s : State) (r : Response) : (s.answer r).kp = s.kp := rfl
@[simp] theorem State.answer_ki (s : State) (r : Response) : (s.answer r).ki = s.ki := rfl
@[simp] theorem State.answer_kd (s : State) (r : Response) : (s.answer r).kd = s.kd := rfl
@[simp] theorem State.answer_neutralSpeed (s : State) (r : Response) : (s.answer r).neutralSpeed = s.neutralSpeed := rfl
@[simp] theorem State.answer_dutyMax (s : State) (r : Response) : (s.answer r).dutyMax = s.dutyMax := rfl
@[simp] theorem State.answer_cal (s : State) (r : Response) : (s.answer r).cal = s.cal := rfl
@[simp] theorem State.answer_integral (s : State) (r : Response) : (s.answer r).integral = s.integral := rfl
@[simp] theorem State.answer_prevError (s : State) (r : Response) : (s.answer r).prevError = s.prevError := rfl
@[simp] theorem State.answer_tickPrev (s : State) (r : Response) : (s.answer r).tickPrev = s.tickPrev := rfl
@[simp] theorem State.answer_elapsed (s : State) (r : Response) : (s.answer r).elapsed = s.elapsed := rfl
@[simp] theorem State.answer_correction (s : State) (r : Response) : (s.answer r).correction = s.correction := rfl
@[simp] theorem State.answer_normOut (s : State) (r : Response) : (s.answer r).normOut = s.normOut := rfl
@[simp] theorem State.answer_norm (s : State) (r : Response) : (s.answer r).norm = s.norm := rfl
@[simp] theorem State.answer_offset (s : State) (r : Response) : (s.answer r).offset = s.offset := rfl
@[simp] theorem State.answer_dutyL (s : State) (r : Response) : (s.answer r).dutyL = s.dutyL := rfl
@[simp] theorem State.answer_dutyR (s : State) (r : Response) : (s.answer r).dutyR = s.dutyR := rfl
@[simp] theorem State.answer_pwmL (s : State) (r : Response) : (s.answer r).pwmL = s.pwmL := rfl
@[simp] theorem State.answer_pwmR (s : State) (r : Response) : (s.answer r).pwmR = s.pwmR := rfl
@[simp] theorem State.answer_sample (s : State) (r : Response) : (s.answer r).sample = s.sample := rfl
@[simp] theorem State.answer_inReset (s : State) (r : Response) : (s.answer r).inReset = s.inReset := rfl
@[simp] theorem State.answer_window (s : State) (r : Response) : (s.answer r).window = s.window := rfl
@[simp] theorem State.answer_response (s : State) (r : Response) : (s.answer r).response = r := rfl
@[simp] theorem State.answer_pending (s : State) (r : Response) : (s.answer r).pending = s.pending := rfl
@[simp] theorem State.answer_freeCount (s : State) (r : Response) : (s.answer r).freeCount = s.freeCount := rfl

end Sys2Proof.Machine
end

