-- ==== Sys2Proof/Laws/Commands.lean ====
section
/-! SUPPORT. One lemma per field for the state updates of the commands' bodies, and the two cases of
`mapDuty`. -/

namespace Sys2Proof.Machine

open Binary32

/-! ## `normalizeTo` -/

@[simp] theorem State.normalizeTo_cmd (s : State) (i : Chan) (raw : Half) : (s.normalizeTo i raw).cmd = s.cmd := rfl
@[simp] theorem State.normalizeTo_status (s : State) (i : Chan) (raw : Half) : (s.normalizeTo i raw).status = if s.cal[i].degenerate then s.status ||| Flag.degen.mask else s.status := rfl
@[simp] theorem State.normalizeTo_opa (s : State) (i : Chan) (raw : Half) : (s.normalizeTo i raw).opa = s.opa := rfl
@[simp] theorem State.normalizeTo_errIn (s : State) (i : Chan) (raw : Half) : (s.normalizeTo i raw).errIn = s.errIn := rfl
@[simp] theorem State.normalizeTo_dtIn (s : State) (i : Chan) (raw : Half) : (s.normalizeTo i raw).dtIn = s.dtIn := rfl
@[simp] theorem State.normalizeTo_corrIn (s : State) (i : Chan) (raw : Half) : (s.normalizeTo i raw).corrIn = s.corrIn := rfl
@[simp] theorem State.normalizeTo_tickIn (s : State) (i : Chan) (raw : Half) : (s.normalizeTo i raw).tickIn = s.tickIn := rfl
@[simp] theorem State.normalizeTo_kp (s : State) (i : Chan) (raw : Half) : (s.normalizeTo i raw).kp = s.kp := rfl
@[simp] theorem State.normalizeTo_ki (s : State) (i : Chan) (raw : Half) : (s.normalizeTo i raw).ki = s.ki := rfl
@[simp] theorem State.normalizeTo_kd (s : State) (i : Chan) (raw : Half) : (s.normalizeTo i raw).kd = s.kd := rfl
@[simp] theorem State.normalizeTo_neutralSpeed (s : State) (i : Chan) (raw : Half) : (s.normalizeTo i raw).neutralSpeed = s.neutralSpeed := rfl
@[simp] theorem State.normalizeTo_dutyMax (s : State) (i : Chan) (raw : Half) : (s.normalizeTo i raw).dutyMax = s.dutyMax := rfl
@[simp] theorem State.normalizeTo_cal (s : State) (i : Chan) (raw : Half) : (s.normalizeTo i raw).cal = s.cal := rfl
@[simp] theorem State.normalizeTo_integral (s : State) (i : Chan) (raw : Half) : (s.normalizeTo i raw).integral = s.integral := rfl
@[simp] theorem State.normalizeTo_prevError (s : State) (i : Chan) (raw : Half) : (s.normalizeTo i raw).prevError = s.prevError := rfl
@[simp] theorem State.normalizeTo_tickPrev (s : State) (i : Chan) (raw : Half) : (s.normalizeTo i raw).tickPrev = s.tickPrev := rfl
@[simp] theorem State.normalizeTo_elapsed (s : State) (i : Chan) (raw : Half) : (s.normalizeTo i raw).elapsed = s.elapsed := rfl
@[simp] theorem State.normalizeTo_correction (s : State) (i : Chan) (raw : Half) : (s.normalizeTo i raw).correction = s.correction := rfl
@[simp] theorem State.normalizeTo_normOut (s : State) (i : Chan) (raw : Half) : (s.normalizeTo i raw).normOut = BitVec.ofInt 32 (normalizeValue s.cal[i] raw) := rfl
@[simp] theorem State.normalizeTo_norm (s : State) (i : Chan) (raw : Half) : (s.normalizeTo i raw).norm = s.norm := rfl
@[simp] theorem State.normalizeTo_offset (s : State) (i : Chan) (raw : Half) : (s.normalizeTo i raw).offset = s.offset := rfl
@[simp] theorem State.normalizeTo_dutyL (s : State) (i : Chan) (raw : Half) : (s.normalizeTo i raw).dutyL = s.dutyL := rfl
@[simp] theorem State.normalizeTo_dutyR (s : State) (i : Chan) (raw : Half) : (s.normalizeTo i raw).dutyR = s.dutyR := rfl
@[simp] theorem State.normalizeTo_pwmL (s : State) (i : Chan) (raw : Half) : (s.normalizeTo i raw).pwmL = s.pwmL := rfl
@[simp] theorem State.normalizeTo_pwmR (s : State) (i : Chan) (raw : Half) : (s.normalizeTo i raw).pwmR = s.pwmR := rfl
@[simp] theorem State.normalizeTo_sample (s : State) (i : Chan) (raw : Half) : (s.normalizeTo i raw).sample = s.sample := rfl
@[simp] theorem State.normalizeTo_inReset (s : State) (i : Chan) (raw : Half) : (s.normalizeTo i raw).inReset = s.inReset := rfl
@[simp] theorem State.normalizeTo_window (s : State) (i : Chan) (raw : Half) : (s.normalizeTo i raw).window = s.window := rfl
@[simp] theorem State.normalizeTo_response (s : State) (i : Chan) (raw : Half) : (s.normalizeTo i raw).response = s.response := rfl
@[simp] theorem State.normalizeTo_pending (s : State) (i : Chan) (raw : Half) : (s.normalizeTo i raw).pending = s.pending := rfl
@[simp] theorem State.normalizeTo_freeCount (s : State) (i : Chan) (raw : Half) : (s.normalizeTo i raw).freeCount = s.freeCount := rfl

/-! ## `estimate` -/

@[simp] theorem State.estimate_cmd (s : State) (w : Vector Half 8) : (s.estimate w).cmd = s.cmd := rfl
@[simp] theorem State.estimate_status (s : State) (w : Vector Half 8) : (s.estimate w).status = if s.anyDegenerate then s.status ||| Flag.degen.mask else s.status := rfl
@[simp] theorem State.estimate_opa (s : State) (w : Vector Half 8) : (s.estimate w).opa = s.opa := rfl
@[simp] theorem State.estimate_errIn (s : State) (w : Vector Half 8) : (s.estimate w).errIn = s.errIn := rfl
@[simp] theorem State.estimate_dtIn (s : State) (w : Vector Half 8) : (s.estimate w).dtIn = s.dtIn := rfl
@[simp] theorem State.estimate_corrIn (s : State) (w : Vector Half 8) : (s.estimate w).corrIn = s.corrIn := rfl
@[simp] theorem State.estimate_tickIn (s : State) (w : Vector Half 8) : (s.estimate w).tickIn = s.tickIn := rfl
@[simp] theorem State.estimate_kp (s : State) (w : Vector Half 8) : (s.estimate w).kp = s.kp := rfl
@[simp] theorem State.estimate_ki (s : State) (w : Vector Half 8) : (s.estimate w).ki = s.ki := rfl
@[simp] theorem State.estimate_kd (s : State) (w : Vector Half 8) : (s.estimate w).kd = s.kd := rfl
@[simp] theorem State.estimate_neutralSpeed (s : State) (w : Vector Half 8) : (s.estimate w).neutralSpeed = s.neutralSpeed := rfl
@[simp] theorem State.estimate_dutyMax (s : State) (w : Vector Half 8) : (s.estimate w).dutyMax = s.dutyMax := rfl
@[simp] theorem State.estimate_cal (s : State) (w : Vector Half 8) : (s.estimate w).cal = s.cal := rfl
@[simp] theorem State.estimate_integral (s : State) (w : Vector Half 8) : (s.estimate w).integral = s.integral := rfl
@[simp] theorem State.estimate_prevError (s : State) (w : Vector Half 8) : (s.estimate w).prevError = s.prevError := rfl
@[simp] theorem State.estimate_tickPrev (s : State) (w : Vector Half 8) : (s.estimate w).tickPrev = s.tickPrev := rfl
@[simp] theorem State.estimate_elapsed (s : State) (w : Vector Half 8) : (s.estimate w).elapsed = s.elapsed := rfl
@[simp] theorem State.estimate_correction (s : State) (w : Vector Half 8) : (s.estimate w).correction = s.correction := rfl
@[simp] theorem State.estimate_normOut (s : State) (w : Vector Half 8) : (s.estimate w).normOut = s.normOut := rfl
@[simp] theorem State.estimate_norm (s : State) (w : Vector Half 8) : (s.estimate w).norm = Vector.ofFn fun i => BitVec.ofInt 32 (s.liveNorm i) := rfl
@[simp] theorem State.estimate_offset (s : State) (w : Vector Half 8) : (s.estimate w).offset = BitVec.ofInt 64 (truncDiv (weightedSum w s.liveNorm) 8) := rfl
@[simp] theorem State.estimate_dutyL (s : State) (w : Vector Half 8) : (s.estimate w).dutyL = s.dutyL := rfl
@[simp] theorem State.estimate_dutyR (s : State) (w : Vector Half 8) : (s.estimate w).dutyR = s.dutyR := rfl
@[simp] theorem State.estimate_pwmL (s : State) (w : Vector Half 8) : (s.estimate w).pwmL = s.pwmL := rfl
@[simp] theorem State.estimate_pwmR (s : State) (w : Vector Half 8) : (s.estimate w).pwmR = s.pwmR := rfl
@[simp] theorem State.estimate_sample (s : State) (w : Vector Half 8) : (s.estimate w).sample = s.sample := rfl
@[simp] theorem State.estimate_inReset (s : State) (w : Vector Half 8) : (s.estimate w).inReset = s.inReset := rfl
@[simp] theorem State.estimate_window (s : State) (w : Vector Half 8) : (s.estimate w).window = s.window := rfl
@[simp] theorem State.estimate_response (s : State) (w : Vector Half 8) : (s.estimate w).response = s.response := rfl
@[simp] theorem State.estimate_pending (s : State) (w : Vector Half 8) : (s.estimate w).pending = s.pending := rfl
@[simp] theorem State.estimate_freeCount (s : State) (w : Vector Half 8) : (s.estimate w).freeCount = s.freeCount := rfl

/-! ## `pidStep` -/

@[simp] theorem State.pidStep_cmd (s : State) (e dtr : F32) : (s.pidStep e dtr).cmd = s.cmd := by
  simp only [State.pidStep, State.raiseIf]
theorem State.pidStep_status (s : State) (e dtr : F32) : (s.pidStep e dtr).status = if !isFinite (s.pidStep e dtr).integral || !isFinite (derivative s.prevError e (clampDt dtr)) ||
      !isFinite (s.pidStep e dtr).correction then s.status ||| Flag.nonfinite.mask else s.status := by
  simp only [State.pidStep, State.raiseIf]; congr
@[simp] theorem State.pidStep_opa (s : State) (e dtr : F32) : (s.pidStep e dtr).opa = s.opa := by
  simp only [State.pidStep, State.raiseIf]
@[simp] theorem State.pidStep_errIn (s : State) (e dtr : F32) : (s.pidStep e dtr).errIn = s.errIn := by
  simp only [State.pidStep, State.raiseIf]
@[simp] theorem State.pidStep_dtIn (s : State) (e dtr : F32) : (s.pidStep e dtr).dtIn = s.dtIn := by
  simp only [State.pidStep, State.raiseIf]
@[simp] theorem State.pidStep_corrIn (s : State) (e dtr : F32) : (s.pidStep e dtr).corrIn = s.corrIn := by
  simp only [State.pidStep, State.raiseIf]
@[simp] theorem State.pidStep_tickIn (s : State) (e dtr : F32) : (s.pidStep e dtr).tickIn = s.tickIn := by
  simp only [State.pidStep, State.raiseIf]
@[simp] theorem State.pidStep_kp (s : State) (e dtr : F32) : (s.pidStep e dtr).kp = s.kp := by
  simp only [State.pidStep, State.raiseIf]
@[simp] theorem State.pidStep_ki (s : State) (e dtr : F32) : (s.pidStep e dtr).ki = s.ki := by
  simp only [State.pidStep, State.raiseIf]
@[simp] theorem State.pidStep_kd (s : State) (e dtr : F32) : (s.pidStep e dtr).kd = s.kd := by
  simp only [State.pidStep, State.raiseIf]
@[simp] theorem State.pidStep_neutralSpeed (s : State) (e dtr : F32) : (s.pidStep e dtr).neutralSpeed = s.neutralSpeed := by
  simp only [State.pidStep, State.raiseIf]
@[simp] theorem State.pidStep_dutyMax (s : State) (e dtr : F32) : (s.pidStep e dtr).dutyMax = s.dutyMax := by
  simp only [State.pidStep, State.raiseIf]
@[simp] theorem State.pidStep_cal (s : State) (e dtr : F32) : (s.pidStep e dtr).cal = s.cal := by
  simp only [State.pidStep, State.raiseIf]
@[simp] theorem State.pidStep_integral (s : State) (e dtr : F32) : (s.pidStep e dtr).integral = nextIntegral s.integral e (clampDt dtr) := by
  simp only [State.pidStep, State.raiseIf]
@[simp] theorem State.pidStep_prevError (s : State) (e dtr : F32) : (s.pidStep e dtr).prevError = e := by
  simp only [State.pidStep, State.raiseIf]
@[simp] theorem State.pidStep_tickPrev (s : State) (e dtr : F32) : (s.pidStep e dtr).tickPrev = s.tickPrev := by
  simp only [State.pidStep, State.raiseIf]
@[simp] theorem State.pidStep_elapsed (s : State) (e dtr : F32) : (s.pidStep e dtr).elapsed = s.elapsed := by
  simp only [State.pidStep, State.raiseIf]
@[simp] theorem State.pidStep_correction (s : State) (e dtr : F32) : (s.pidStep e dtr).correction = correctionOf s.kp s.ki s.kd e (nextIntegral s.integral e (clampDt dtr)) (derivative s.prevError e (clampDt dtr)) := by
  simp only [State.pidStep, State.raiseIf]
@[simp] theorem State.pidStep_normOut (s : State) (e dtr : F32) : (s.pidStep e dtr).normOut = s.normOut := by
  simp only [State.pidStep, State.raiseIf]
@[simp] theorem State.pidStep_norm (s : State) (e dtr : F32) : (s.pidStep e dtr).norm = s.norm := by
  simp only [State.pidStep, State.raiseIf]
@[simp] theorem State.pidStep_offset (s : State) (e dtr : F32) : (s.pidStep e dtr).offset = s.offset := by
  simp only [State.pidStep, State.raiseIf]
@[simp] theorem State.pidStep_dutyL (s : State) (e dtr : F32) : (s.pidStep e dtr).dutyL = s.dutyL := by
  simp only [State.pidStep, State.raiseIf]
@[simp] theorem State.pidStep_dutyR (s : State) (e dtr : F32) : (s.pidStep e dtr).dutyR = s.dutyR := by
  simp only [State.pidStep, State.raiseIf]
@[simp] theorem State.pidStep_pwmL (s : State) (e dtr : F32) : (s.pidStep e dtr).pwmL = s.pwmL := by
  simp only [State.pidStep, State.raiseIf]
@[simp] theorem State.pidStep_pwmR (s : State) (e dtr : F32) : (s.pidStep e dtr).pwmR = s.pwmR := by
  simp only [State.pidStep, State.raiseIf]
@[simp] theorem State.pidStep_sample (s : State) (e dtr : F32) : (s.pidStep e dtr).sample = s.sample := by
  simp only [State.pidStep, State.raiseIf]
@[simp] theorem State.pidStep_inReset (s : State) (e dtr : F32) : (s.pidStep e dtr).inReset = s.inReset := by
  simp only [State.pidStep, State.raiseIf]
@[simp] theorem State.pidStep_window (s : State) (e dtr : F32) : (s.pidStep e dtr).window = s.window := by
  simp only [State.pidStep, State.raiseIf]
@[simp] theorem State.pidStep_response (s : State) (e dtr : F32) : (s.pidStep e dtr).response = s.response := by
  simp only [State.pidStep, State.raiseIf]
@[simp] theorem State.pidStep_pending (s : State) (e dtr : F32) : (s.pidStep e dtr).pending = s.pending := by
  simp only [State.pidStep, State.raiseIf]
@[simp] theorem State.pidStep_freeCount (s : State) (e dtr : F32) : (s.pidStep e dtr).freeCount = s.freeCount := by
  simp only [State.pidStep, State.raiseIf]

/-! ## `mapDuty` -/

@[simp] theorem State.mapDuty_cmd (s : State) (c : F32) : (s.mapDuty c).cmd = s.cmd := by
  unfold State.mapDuty; split <;> rfl
@[simp] theorem State.mapDuty_opa (s : State) (c : F32) : (s.mapDuty c).opa = s.opa := by
  unfold State.mapDuty; split <;> rfl
@[simp] theorem State.mapDuty_errIn (s : State) (c : F32) : (s.mapDuty c).errIn = s.errIn := by
  unfold State.mapDuty; split <;> rfl
@[simp] theorem State.mapDuty_dtIn (s : State) (c : F32) : (s.mapDuty c).dtIn = s.dtIn := by
  unfold State.mapDuty; split <;> rfl
@[simp] theorem State.mapDuty_corrIn (s : State) (c : F32) : (s.mapDuty c).corrIn = s.corrIn := by
  unfold State.mapDuty; split <;> rfl
@[simp] theorem State.mapDuty_tickIn (s : State) (c : F32) : (s.mapDuty c).tickIn = s.tickIn := by
  unfold State.mapDuty; split <;> rfl
@[simp] theorem State.mapDuty_kp (s : State) (c : F32) : (s.mapDuty c).kp = s.kp := by
  unfold State.mapDuty; split <;> rfl
@[simp] theorem State.mapDuty_ki (s : State) (c : F32) : (s.mapDuty c).ki = s.ki := by
  unfold State.mapDuty; split <;> rfl
@[simp] theorem State.mapDuty_kd (s : State) (c : F32) : (s.mapDuty c).kd = s.kd := by
  unfold State.mapDuty; split <;> rfl
@[simp] theorem State.mapDuty_neutralSpeed (s : State) (c : F32) : (s.mapDuty c).neutralSpeed = s.neutralSpeed := by
  unfold State.mapDuty; split <;> rfl
@[simp] theorem State.mapDuty_dutyMax (s : State) (c : F32) : (s.mapDuty c).dutyMax = s.dutyMax := by
  unfold State.mapDuty; split <;> rfl
@[simp] theorem State.mapDuty_cal (s : State) (c : F32) : (s.mapDuty c).cal = s.cal := by
  unfold State.mapDuty; split <;> rfl
@[simp] theorem State.mapDuty_integral (s : State) (c : F32) : (s.mapDuty c).integral = s.integral := by
  unfold State.mapDuty; split <;> rfl
@[simp] theorem State.mapDuty_prevError (s : State) (c : F32) : (s.mapDuty c).prevError = s.prevError := by
  unfold State.mapDuty; split <;> rfl
@[simp] theorem State.mapDuty_tickPrev (s : State) (c : F32) : (s.mapDuty c).tickPrev = s.tickPrev := by
  unfold State.mapDuty; split <;> rfl
@[simp] theorem State.mapDuty_elapsed (s : State) (c : F32) : (s.mapDuty c).elapsed = s.elapsed := by
  unfold State.mapDuty; split <;> rfl
@[simp] theorem State.mapDuty_correction (s : State) (c : F32) : (s.mapDuty c).correction = s.correction := by
  unfold State.mapDuty; split <;> rfl
@[simp] theorem State.mapDuty_normOut (s : State) (c : F32) : (s.mapDuty c).normOut = s.normOut := by
  unfold State.mapDuty; split <;> rfl
@[simp] theorem State.mapDuty_norm (s : State) (c : F32) : (s.mapDuty c).norm = s.norm := by
  unfold State.mapDuty; split <;> rfl
@[simp] theorem State.mapDuty_offset (s : State) (c : F32) : (s.mapDuty c).offset = s.offset := by
  unfold State.mapDuty; split <;> rfl
@[simp] theorem State.mapDuty_sample (s : State) (c : F32) : (s.mapDuty c).sample = s.sample := by
  unfold State.mapDuty; split <;> rfl
@[simp] theorem State.mapDuty_inReset (s : State) (c : F32) : (s.mapDuty c).inReset = s.inReset := by
  unfold State.mapDuty; split <;> rfl
@[simp] theorem State.mapDuty_window (s : State) (c : F32) : (s.mapDuty c).window = s.window := by
  unfold State.mapDuty; split <;> rfl
@[simp] theorem State.mapDuty_response (s : State) (c : F32) : (s.mapDuty c).response = s.response := by
  unfold State.mapDuty; split <;> rfl
@[simp] theorem State.mapDuty_pending (s : State) (c : F32) : (s.mapDuty c).pending = s.pending := by
  unfold State.mapDuty; split <;> rfl
@[simp] theorem State.mapDuty_freeCount (s : State) (c : F32) : (s.mapDuty c).freeCount = s.freeCount := by
  unfold State.mapDuty; split <;> rfl

/-- With a legal pair `mapDuty` writes the duties and their lines, and NONFINITE for a NaN. -/
theorem State.mapDuty_legal (s : State) (c : F32) (h : s.legalPair = true) :
    s.mapDuty c = { s with
      status := if isNaN c then s.status ||| Flag.nonfinite.mask else s.status
      dutyL := BitVec.ofInt 32 (s.leftDuty c), dutyR := BitVec.ofInt 32 (s.rightDuty c)
      pwmL := lines (s.leftDuty c), pwmR := lines (s.rightDuty c) } := by
  unfold State.mapDuty; rw [if_pos h]; rfl

/-- With an illegal pair `mapDuty` raises CFGERR and does nothing else. -/
theorem State.mapDuty_illegal (s : State) (c : F32) (h : s.legalPair = false) :
    s.mapDuty c = s.raise .cfgerr := by
  unfold State.mapDuty; rw [h]; rfl

theorem State.legalPair_iff (s : State) :
    s.legalPair = true ↔ -s.dutyMax.toInt ≤ s.neutralSpeed.toInt ∧ s.neutralSpeed.toInt ≤ s.dutyMax.toInt := by
  simp [State.legalPair]

end Sys2Proof.Machine
end

