-- ==== Sys2Proof/Laws/Config.lean ====
section
/-! SUPPORT. What is known of the weights: the constraints of 00_scope.md R6, whatever the open parameter
is. -/

namespace Sys2Proof.Config

theorem defaultWeights_ok : WeightsOk defaultWeights := by decide

/-- The weights meet 00_scope.md R6. -/
theorem weights_ok : WeightsOk weights := by
  unfold weights
  split
  · assumption
  · exact defaultWeights_ok

/-- Sign symmetry, channel by channel. -/
theorem weights_rev (i : Chan) : (weights[i]).toInt = -(weights[i.rev]).toInt := weights_ok.1 i

end Sys2Proof.Config
end

