-- ==== Sys2Proof/Laws/Decode.lean ====
section
/-! SUPPORT. The fields of a command word: taking them apart and putting them together. -/

namespace Sys2Proof

/-- A word is its fields. -/
theorem C32.toWord_ofWord (w : Word) : (C32.ofWord w).toWord = w := by
  apply BitVec.eq_of_getLsbD_eq
  intro i hi
  simp only [C32.ofWord, C32.toWord, BitVec.getLsbD_append, BitVec.getLsbD_extractLsb']
  have h : i < 4 ∨ i = 4 ∨ (5 ≤ i ∧ i < 8) ∨ (8 ≤ i ∧ i < 11) ∨ 11 ≤ i := by omega
  rcases h with h | rfl | h | h | h
  · simp [h]
  · simp
  · simp [show ¬ i < 4 by omega, show ¬ i - 4 < 1 by omega, show i - 4 - 1 < 3 by omega,
      show 5 + (i - 4 - 1) = i by omega]
  · simp [show ¬ i < 4 by omega, show ¬ i - 4 < 1 by omega, show ¬ i - 4 - 1 < 3 by omega,
      show i - 4 - 1 - 3 < 3 by omega, show 8 + (i - 4 - 1 - 3) = i by omega]
  · simp [show ¬ i < 4 by omega, show ¬ i - 4 < 1 by omega, show ¬ i - 4 - 1 < 3 by omega,
      show ¬ i - 4 - 1 - 3 < 3 by omega, show i - 4 - 1 - 3 - 3 < 21 by omega,
      show 11 + (i - 4 - 1 - 3 - 3) = i by omega]

/-- Two words with the same fields are equal. -/
theorem C32.ofWord_inj {v w : Word} (h : C32.ofWord v = C32.ofWord w) : v = w := by
  rw [← C32.toWord_ofWord v, h, C32.toWord_ofWord]

/-- A word is its four byte lanes. -/
theorem wordOfBytes_bytes (w : Word) :
    wordOfBytes (w.extractLsb' 0 8) (w.extractLsb' 8 8) (w.extractLsb' 16 8) (w.extractLsb' 24 8) = w := by
  apply BitVec.eq_of_getLsbD_eq
  intro i hi
  simp only [wordOfBytes, BitVec.getLsbD_append, BitVec.getLsbD_extractLsb']
  have h : i < 8 ∨ (8 ≤ i ∧ i < 16) ∨ (16 ≤ i ∧ i < 24) ∨ 24 ≤ i := by omega
  rcases h with h | h | h | h
  · simp [h]
  · simp [show ¬ i < 8 by omega, show i - 8 < 8 by omega, show 8 + (i - 8) = i by omega]
  · simp [show ¬ i < 8 by omega, show ¬ i - 8 < 8 by omega, show i - 8 - 8 < 8 by omega,
      show 16 + (i - 8 - 8) = i by omega]
  · simp [show ¬ i < 8 by omega, show ¬ i - 8 < 8 by omega, show ¬ i - 8 - 8 < 8 by omega,
      show i - 8 - 8 - 8 < 8 by omega, show 24 + (i - 8 - 8 - 8) = i by omega]

end Sys2Proof
end

