-- ==== Sys2Proof/Laws/PerInstr.lean ====
section
/-! SUPPORT. The per-instruction family `EncodesRow`: an instruction's word matches its own row of the opcode
map (30_encoding.md R81), and no other row. -/

namespace Sys2Proof.Laws.EncodesRow

/-- The instruction's word matches exactly its own row. -/
def Statement (i : Instr) : Prop :=
  ∀ r ∈ opcodeTable, r.matchesWord (encode i) = true ↔ r = i.row

theorem nop : Statement .nop := by unfold Statement; decide
theorem norm : ∀ ch, Statement (.norm ch) := by unfold Statement; decide
theorem normi : ∀ ch, Statement (.normi ch) := by unfold Statement; decide
theorem est : Statement .est := by unfold Statement; decide
theorem pid : Statement .pid := by unfold Statement; decide
theorem pidi : Statement .pidi := by unfold Statement; decide
theorem map : Statement .map := by unfold Statement; decide
theorem mapi : Statement .mapi := by unfold Statement; decide
theorem tdelta : Statement .tdelta := by unfold Statement; decide
theorem loop : Statement .loop := by unfold Statement; decide

end Sys2Proof.Laws.EncodesRow
end

