-- ==== Sys2Proof/Laws/Step.lean ====
section
/-! SUPPORT. What a command, a host access and a step can do, said once: the provers cite these instead of
unfolding `exec`, `hostAccess` and `step`. -/

namespace Sys2Proof.Machine

/-- The state a command leaves. -/
def effect (i : Instr) (s : State) : State :=
  match i with
  | .nop => s
  | .norm ch => s.normalizeTo ch (s.sampleRead ch)
  | .normi ch => s.normalizeTo ch s.opa
  | .est => s.estimate Config.weights
  | .pid => s.pidStep (Binary32.i2f s.offset.toInt) s.dtIn
  | .pidi => s.pidStep s.errIn s.dtIn
  | .map => s.mapDuty s.correction
  | .mapi => s.mapDuty s.corrIn
  | .tdelta => { s with elapsed := s.tickIn - s.tickPrev, tickPrev := s.tickIn }
  | .loop => s.iteration Config.weights

/-- Every command ends in a next state. -/
theorem exec_effect (i : Instr) (s : State) : exec i s = .next (effect i s) := by
  cases i <;> rfl

theorem exec_next {i : Instr} {s t : State} (h : exec i s = .next t) : t = effect i s := by
  rw [exec_effect] at h; injection h with h; exact h.symm

/-- LOOP's three parts, one after the other. -/
theorem iteration_eq (w : Vector Half 8) (s : State) :
    s.iteration w =
      (((s.estimate w).pidStep (Binary32.i2f (s.estimate w).offset.toInt) s.dtIn).mapDuty
        ((s.estimate w).pidStep (Binary32.i2f (s.estimate w).offset.toInt) s.dtIn).correction) := rfl

/-- A host access that does not stop is one of these four. -/
theorem hostAccess_next {a : Access} {s t : State} (h : hostAccess a s = .next t) :
    a.bytes = 4 ∧ a.off % 4 = 0 ∧ a.off ≤ 0xFC ∧
    ((∃ r, a.kind = .read ∧ Reg.ofOffset a.off = some r ∧ t = s.answer (.data (s.readReg r))) ∨
    (∃ v i, a.kind = .write v ∧ Reg.ofOffset a.off = some .cmd ∧ decode v = .ok i ∧
      t = (effect i { s with cmd := v }).answer .done) ∨
    (∃ v e, a.kind = .write v ∧ Reg.ofOffset a.off = some .cmd ∧ decode v = .error e ∧
      t = (({ s with cmd := v } : State).raise .illcmd).answer .done) ∨
    (∃ v r, a.kind = .write v ∧ Reg.ofOffset a.off = some r ∧ r ≠ .cmd ∧
      t = (s.writeReg r v).answer .done)) := by
  unfold hostAccess at h
  split at h
  · rename_i hacc
    simp only [Access.accepted, Bool.and_eq_true, beq_iff_eq, decide_eq_true_eq] at hacc
    refine ⟨hacc.1.1, hacc.1.2, hacc.2, ?_⟩
    have ho : Reg.ofOffset a.off = some (Reg.ofIndex (a.off / 4)) := if_pos ⟨hacc.1.2, hacc.2⟩
    split at h
    · rename_i hk
      simp only [memRead, ho, Option.map_some] at h
      injection h with h
      exact .inl ⟨_, hk, ho, h.symm⟩
    · rename_i v hk
      unfold memWrite at h
      rw [ho] at h
      split at h
      · rename_i hn; exact absurd hn (by simp)
      · rename_i hc
        have hc' : Reg.ofOffset a.off = some .cmd := by rw [ho]; exact hc
        unfold execute at h
        split at h
        · rename_i i hd
          rw [exec_effect] at h
          injection h with h
          exact .inr (.inl ⟨v, i, hk, hc', hd, h.symm⟩)
        · rename_i e hd
          injection h with h
          exact .inr (.inr (.inl ⟨v, e, hk, hc', hd, h.symm⟩))
      · rename_i r hne hr
        injection h with h
        exact .inr (.inr (.inr ⟨v, r, hk, by rw [ho]; exact hr, hne, h.symm⟩))
  · exact absurd h (by simp)

/-- A host access stops exactly where the block refuses it (20_memory.md R64). -/
theorem hostAccess_cases (a : Access) (s : State) :
    (a.accepted = true ∧ ∃ t, hostAccess a s = .next t) ∨
    (a.accepted = false ∧ hostAccess a s = .fault (.busError a.off a.bytes)) := by
  cases hacc : a.accepted
  · exact .inr ⟨rfl, by simp [hostAccess, hacc]⟩
  · refine .inl ⟨rfl, ?_⟩
    have hacc' := hacc
    simp only [Access.accepted, Bool.and_eq_true, beq_iff_eq, decide_eq_true_eq] at hacc'
    have ho : Reg.ofOffset a.off = some (Reg.ofIndex (a.off / 4)) := if_pos ⟨hacc'.1.2, hacc'.2⟩
    unfold hostAccess
    rw [if_pos hacc]
    cases a.kind with
    | read => exact ⟨_, by simp only [memRead, ho, Option.map_some]; rfl⟩
    | write v =>
      simp only [memWrite, ho]
      split
      · rename_i hn; exact absurd hn (by simp)
      · unfold execute
        split
        · exact ⟨_, by rw [exec_effect]; rfl⟩
        · exact ⟨_, rfl⟩
      · exact ⟨_, rfl⟩

/-- A step that does not stop took one of these inputs. -/
theorem step_next {s t : State} (h : step s = .next t) :
    (s.pending = [] ∧ t = s) ∨
    (∃ a w rest, s.pending = .access a w :: rest ∧ s.inReset = true ∧
      t = ((({ s with pending := rest } : State).openWindow w).answer .notAccepted).closeWindow) ∨
    (∃ a w rest u, s.pending = .access a w :: rest ∧ s.inReset = false ∧
      hostAccess a (({ s with pending := rest } : State).openWindow w) = .next u ∧ t = u.closeWindow) ∨
    (∃ w rest, s.pending = .sampleWrite w :: rest ∧
      t = ({ s with pending := rest } : State).applySamples [w]) ∨
    (∃ rest, s.pending = .resetAssert :: rest ∧ t = { s with pending := rest, inReset := true }) ∨
    (∃ rest, s.pending = .resetRelease :: rest ∧
      t = if s.inReset then ({ s with pending := rest } : State).blockReset else { s with pending := rest }) := by
  unfold step at h
  split at h
  · rename_i hp; injection h with h; exact .inl ⟨hp, h.symm⟩
  · rename_i x rest hp
    right
    cases x with
    | access a w =>
      simp only [deliver] at h
      split at h
      · rename_i hr
        injection h with h
        exact .inl ⟨a, w, rest, hp, hr, h.symm⟩
      · rename_i hr
        refine .inr (.inl ?_)
        rcases hostAccess_cases a (({ s with pending := rest } : State).openWindow w) with ⟨-, u, hu⟩ | ⟨-, hf⟩
        · rw [hu] at h; injection h with h
          exact ⟨a, w, rest, u, hp, by simpa using hr, hu, h.symm⟩
        · rw [hf] at h; exact absurd h (by simp [thenNext])
    | sampleWrite w =>
      injection h with h; exact .inr (.inr (.inl ⟨w, rest, hp, h.symm⟩))
    | resetAssert =>
      injection h with h; exact .inr (.inr (.inr (.inl ⟨rest, hp, h.symm⟩)))
    | resetRelease =>
      injection h with h; exact .inr (.inr (.inr (.inr ⟨rest, hp, h.symm⟩)))

/-! ## What `step` does with each input -/

theorem step_nil {s : State} (h : s.pending = []) : step s = .next s := by simp [step, h]

theorem step_access {s : State} {a : Access} {w : Window} {rest : List Input}
    (h : s.pending = .access a w :: rest) (hr : s.inReset = false) :
    step s = thenNext (hostAccess a (({ s with pending := rest } : State).openWindow w)) State.closeWindow := by
  simp [step, h, deliver, hr]

theorem step_access_inReset {s : State} {a : Access} {w : Window} {rest : List Input}
    (h : s.pending = .access a w :: rest) (hr : s.inReset = true) :
    step s = .next ((({ s with pending := rest } : State).openWindow w).answer .notAccepted).closeWindow := by
  simp [step, h, deliver, hr]

theorem step_sampleWrite {s : State} {w : SampleWrite} {rest : List Input}
    (h : s.pending = .sampleWrite w :: rest) :
    step s = .next (({ s with pending := rest } : State).applySamples [w]) := by simp [step, h, deliver]

theorem step_resetAssert {s : State} {rest : List Input} (h : s.pending = .resetAssert :: rest) :
    step s = .next { s with pending := rest, inReset := true } := by simp [step, h, deliver]

theorem step_resetRelease {s : State} {rest : List Input} (h : s.pending = .resetRelease :: rest) :
    step s = .next (if s.inReset then ({ s with pending := rest } : State).blockReset
      else { s with pending := rest }) := by simp [step, h, deliver]

/-! ## The sample port after Sample Source writes, channel by channel -/

theorem writePort_get (p : Vector SampleCell 8) (w : SampleWrite) (i : Chan) :
    (writePort p w)[i] = if w.ch = i then .holds w.value else p[i] := by
  unfold writePort
  by_cases h : w.ch = i
  · subst h; simp
  · have : w.ch.val ≠ i.val := fun k => h (Fin.ext k)
    simp [h, this]

/-- A channel holds the last value written to it, and what it held before where nothing was. -/
theorem writePort_foldl_get (ws : List SampleWrite) (p : Vector SampleCell 8) (i : Chan) :
    (ws.foldl writePort p)[i] =
      (((ws.filter (fun y => y.ch == i)).getLast?).map fun x => SampleCell.holds x.value).getD p[i] := by
  induction ws generalizing p with
  | nil => rfl
  | cons w ws ih =>
    rw [List.foldl_cons, ih, writePort_get]
    by_cases h : w.ch = i
    · simp only [h, List.filter_cons, beq_self_eq_true, if_true, List.getLast?_cons]
      cases (List.filter (fun y => y.ch == i) ws).getLast? <;> simp
    · simp [h]

/-- The block accepts every 32-bit access at a register's offset (20_memory.md R61). -/
theorem accepted_at_offset (k : AccessKind) (r : Reg) : (⟨k, r.offset, 4⟩ : Access).accepted = true := by
  have h : r.offset % 4 = 0 ∧ r.offset ≤ 0xFC := by cases r <;> simp [Reg.offset] <;> omega
  simp [Access.accepted, h]

end Sys2Proof.Machine
end

