-- ==== Sys2Proof/Tests/Slice0.lean ====
section
/-! SUPPORT. Tests: expected values from 95_test_vectors.md and the rules, never from the model. Each is about
one step or one command on a small state; the witnesses at the end show that the hypotheses of the
statements can be met. -/

namespace Sys2Proof.Tests

-- One test after another: side by side, their kernel checks take more threads than the sandbox allows.
set_option Elab.async false

open Sys2Proof.Machine Sys2Proof.Machine.Binary32

/-! ## Helpers -/

/-- What a step or a command leaves, or the reset state where it stops. -/
def after (o : Host.Outcome State Fault Refusal) : State :=
  match o with
  | .next s => s
  | .fault _ => State.reset
  | .refused _ => State.reset

/-- Whether the outcome is a next state. -/
def goesOn (o : Host.Outcome State Fault Refusal) : Bool :=
  match o with
  | .next _ => true
  | .fault _ => false
  | .refused _ => false

/-- Whether the outcome is the bus error. -/
def busErrors (o : Host.Outcome State Fault Refusal) : Bool :=
  match o with
  | .next _ => false
  | .fault _ => true
  | .refused _ => false

/-- Every channel calibrated to (1000, 3000), the port at these samples (95_test_vectors.md 2.2). -/
def sampled (v : Vector Half 8) : State :=
  { State.reset with
    cal := Vector.replicate 8 ⟨1000, 3000⟩
    sample := v.map SampleCell.holds }

/-- The speeds of 95_test_vectors.md 2.5. -/
def speeds (n m : Half) : State := { State.reset with neutralSpeed := n, dutyMax := m }

/-- One host access, alone, with a quiet Sample Source. -/
def doing (s : State) (a : Access) : State := { s with pending := [.access a Window.quiet] }

/-! ## WellFormed: each check refuses an ill-formed term -/

theorem smoke_ok : (C32.ofWord 0x00000701#32).wellFormed = true := by decide
theorem smoke_reservedClear_low : (⟨0, 0, 4, 0, 0⟩ : C32).reservedClear = false := by decide
theorem smoke_reservedClear_high : (⟨1, 0, 0, 0, 1⟩ : C32).reservedClear = false := by decide
theorem smoke_opAssigned : (⟨7, 0, 0, 0, 0⟩ : C32).opAssigned = false := by decide
theorem smoke_sourceAllowed : (⟨2, 1, 0, 0, 0⟩ : C32).sourceAllowed = false := by decide
theorem smoke_channelAllowed : (⟨3, 1, 0, 1, 0⟩ : C32).channelAllowed = false := by decide
theorem smoke_wellFormed : (⟨15, 1, 7, 7, 0⟩ : C32).wellFormed = false := by decide
theorem smoke_instr (i : Instr) : i.wellFormed = true := by cases i <;> simp [Instr.wellFormed]
theorem smoke_weights : ¬ Config.WeightsOk #v[-7, -5, -3, -1, 1, 3, 5, 8] := by decide
theorem smoke_access : (⟨.read, 0x02, 4⟩ : Access).accepted = false := by decide

/-! ## Decoding: words written out from 30_encoding.md R80 and R81, and 95_test_vectors.md 2.6.
Bits [3:0] OP, [4] S, [10:8] CH. -/

theorem test_decode_nop : decode 0b00000000000000000000000000000000#32 = .ok .nop := by decide
theorem test_decode_norm : decode 0b00000000000000000000011100000001#32 = .ok (.norm 7) := by decide
theorem test_decode_normi : decode 0b00000000000000000000001000010001#32 = .ok (.normi 2) := by decide
theorem test_decode_est : decode 0b00000000000000000000000000000010#32 = .ok .est := by decide
theorem test_decode_pid : decode 0b00000000000000000000000000000011#32 = .ok .pid := by decide
theorem test_decode_pidi : decode 0b00000000000000000000000000010011#32 = .ok .pidi := by decide
theorem test_decode_map : decode 0b00000000000000000000000000000100#32 = .ok .map := by decide
theorem test_decode_mapi : decode 0b00000000000000000000000000010100#32 = .ok .mapi := by decide
theorem test_decode_tdelta : decode 0b00000000000000000000000000000101#32 = .ok .tdelta := by decide
theorem test_decode_loop : decode 0b00000000000000000000000000000110#32 = .ok .loop := by decide
theorem test_decode_illegal :
    [0x7#32, 0xF#32, 0x10#32, 0x12#32, 0x15#32, 0x16#32, 0x102#32, 0x113#32, 0x20#32, 0x80#32, 0x800#32,
      0x80000001#32, 0xFFFFFFFF#32].all (fun w => !(decode w).toBool) = true := by decide
theorem test_decode_bytes : decodeBytes [0x11, 0x02, 0x00, 0x00, 0x05] = .ok (.normi 2, [0x05]) := by decide
theorem test_decode_short : decodeBytes [0x11, 0x02, 0x00] = .error .truncated := by decide
theorem test_decodeTableWord : decodeTableWord 32 0x711 = some (.normi 7) := by decide
theorem test_rows_disjoint : opcodeTable.Pairwise (fun a b => (a.pattern ^^^ b.pattern) &&& (a.mask &&& b.mask) ≠ 0#32) := by
  decide +kernel

/-! ## Commands (95_test_vectors.md section 2) -/

theorem test_norm_live : (after (exec (.norm 2) (sampled (Vector.replicate 8 999)))).normOut = 0xFFFFFFFB#32 := by
  decide +kernel
theorem test_norm_degenerate :
    (after (exec (.norm 0) State.reset)).normOut = 5000#32 ∧ (after (exec (.norm 0) State.reset)).status = 8#4 := by
  decide +kernel
theorem test_normi_truncates :
    (after (exec (.normi 0) { State.reset with cal := Vector.replicate 8 ⟨3, 6⟩, opa := 2 })).normOut =
      0xFFFFF2FB#32 := by decide +kernel
theorem test_normi_largest :
    (after (exec (.normi 5) { State.reset with cal := Vector.replicate 8 ⟨0, 1⟩, opa := 65535 })).normOut =
      0x270FD8F0#32 := by decide +kernel
theorem test_est_offset :
    ((sampled #v[1000, 1000, 1000, 1000, 1000, 1000, 1500, 3000]).estimate Config.defaultWeights).offset =
      10312#64 := by decide +kernel
theorem test_est_toward_zero :
    (({ sampled #v[1, 1000, 1000, 1000, 1000, 1000, 1000, 1000] with
      cal := (Vector.replicate 8 ⟨1000, 3000⟩).set 0 ⟨0, 10000⟩ } : State).estimate Config.defaultWeights).offset =
      0#64 := by decide +kernel
/-- The PID row with the binary32 rounding of i2f: OFFSET = 16777217. -/
theorem test_pid_rounds :
    (after (exec .pid { State.reset with kp := 0x3F800000, dtIn := 0x3F800000, offset := 16777217 })).correction =
      0x4B800000#32 := by decide +kernel
/-- The row after "(1.0, 100.0)" of section 2.3. -/
theorem test_pidi_second_step :
    let t := after (exec .pidi { State.reset with
      kp := 0x3F000000, ki := 0x3E800000, kd := 0x3E000000, errIn := 0x42A00000, dtIn := 0x3C23D70A
      integral := 0x3F800000, prevError := 0x42C80000 })
    t.integral = 0x3FE66666#32 ∧ t.correction = 0xC3518CCD#32 ∧ t.status = 0#4 := by decide +kernel
theorem test_pidi_nan :
    let t := after (exec .pidi { State.reset with errIn := 0x7FC00001, dtIn := 0x3F800000 })
    t.integral = 0x7FC00000#32 ∧ t.prevError = 0x7FC00001#32 ∧ t.correction = 0x7FC00000#32 ∧ t.status = 4#4 := by
  decide +kernel
theorem test_tdelta_wraps :
    let t := after (exec .tdelta { State.reset with tickPrev := 0xFFFFFFFE, tickIn := 1 })
    t.elapsed = 3#32 ∧ t.tickPrev = 1#32 := by decide +kernel
theorem test_map_example :
    let t := after (exec .map { speeds 6000 24000 with correction := 0x4608B800 })
    t.dutyL = 14750#32 ∧ t.dutyR = 6000#32 ∧ t.pwmL = 0x0000399E#32 ∧ t.pwmR = 0x00001770#32 := by decide +kernel
theorem test_map_nan_is_neutral :
    let t := after (exec .map { speeds 6000 24000 with correction := 0x7FC00000 })
    t.dutyL = 6000#32 ∧ t.dutyR = 6000#32 ∧ t.status = 4#4 := by decide +kernel
theorem test_mapi_toward_zero :
    let t := after (exec .mapi { speeds (-100) 24000 with corrIn := 0x3F000000 })
    t.dutyL.toInt = -99 ∧ t.dutyR.toInt = -100 ∧ t.pwmL = 0x00630000#32 ∧ t.pwmR = 0x00640000#32 := by decide +kernel
theorem test_mapi_cfgerr_only :
    let t := after (exec .mapi { speeds 7000 6000 with corrIn := 0x7FC00000 })
    t.status = 2#4 ∧ t.dutyL = 0#32 := by decide +kernel
theorem test_nop : after (exec .nop (speeds 1 2)) = speeds 1 2 := by decide +kernel
/-- The first iteration of program P2 (95_test_vectors.md 3.2). -/
theorem test_loop_first_iteration :
    let t := ({ sampled #v[1000, 1000, 1000, 2000, 3000, 1000, 1000, 1000] with
      kp := 0x3F000000, ki := 0x3E800000, kd := 0x3E000000, dtIn := 0x3C23D70A
      neutralSpeed := 6000, dutyMax := 24000 } : State).iteration Config.defaultWeights
    t.offset = 625#64 ∧ t.integral = 0x40C80000#32 ∧ t.correction = 0x45FDF480#32 ∧ t.dutyL = 14126#32 ∧
      t.dutyR = 6000#32 := by decide +kernel
theorem test_loop_cfgerr_stops_the_map_only :
    let t := ({ sampled (Vector.replicate 8 1000) with neutralSpeed := 7000, dutyMax := 6000 } : State).iteration
      Config.defaultWeights
    t.status = 2#4 ∧ t.norm[0] = 0#32 ∧ t.dutyL = 0#32 := by decide +kernel

/-! ## The race vector of 95_test_vectors.md 2.2: every pair of draws is a run -/

/-- SAMPLE = 1000 in all channels; 3000 is written to channel 7 and then to channel 0 in the window. -/
def racing (d0 d7 : Nat) : State :=
  (sampled (Vector.replicate 8 1000)).openWindow ⟨[⟨7, 3000⟩, ⟨0, 3000⟩], #v[d0, 0, 0, 0, 0, 0, 0, d7]⟩

theorem test_race_new_old :
    (after (exec .est (racing 1 0))).norm[0] = 10000#32 ∧ (after (exec .est (racing 1 0))).norm[7] = 0#32 := by decide +kernel
theorem test_race_old_new :
    (after (exec .est (racing 0 1))).norm[0] = 0#32 ∧ (after (exec .est (racing 0 1))).norm[7] = 10000#32 := by decide +kernel

/-! ## Binary32 constants and vectors -/

theorem test_dt_floor_is_1e_6 : ofRatio false 1 1000000 = Config.dtFloor := by decide +kernel
theorem test_max_integral : ofRatio false 18446742974197923840 1 = Config.maxIntegral := by decide +kernel
theorem test_f32_1e30 : (Value.f32 false 1 30).toWord = 0x7149F2CA#32 := by decide +kernel
theorem test_f32_minus_3e38 : (Value.f32 true 3 38).toWord = 0xFF61B1E6#32 := by decide +kernel
theorem test_subnormal_product : fmul 0x00000003#32 0x3F000000#32 = 0x00000002#32 := by decide +kernel
theorem test_opposite_sum_is_plus_zero : fadd 0x3F800000#32 0xBF800000#32 = 0x00000000#32 := by decide +kernel
/-- 41_pid.md R122 against the sentence of R129: finite operands whose product overflows (log 12). -/
theorem test_minus_infinity_meets_overflow :
    nextIntegral 0xFF800000#32 0x7F7FFFFF#32 0x7F7FFFFF#32 = 0x7FC00000#32 := by decide +kernel
/-- 41_pid.md R122 against R132: a zero error with an infinite time delta (log 12). -/
theorem test_zero_error_infinite_delta :
    nextIntegral 0x00000000#32 0x00000000#32 0x7F800000#32 = 0x7FC00000#32 := by decide +kernel

/-! ## The bus (95_test_vectors.md 2.7) and fetching -/

theorem test_opa_keeps_16_bits :
    (after (memWrite 0x08 0x12345678 State.reset)).readReg .opa = 0x00005678#32 := by decide +kernel
theorem test_neutral_sign_extends :
    (after (memWrite 0x30 0x0001FFFF State.reset)).readReg .neutralSpeed = 0xFFFFFFFF#32 := by decide +kernel
theorem test_range_of_inverted_bounds :
    (after (memWrite 0x6C 0x03E80BB8 State.reset)).readReg (.range 3) = 0xFFFFF830#32 := by decide +kernel
theorem test_status_w1c :
    (after (memWrite 0x04 0x5 { State.reset with status := 0xF })).readReg .status = 0x0000000A#32 := by decide +kernel
theorem test_read_response :
    (after (step (doing { State.reset with normOut := 5000 } ⟨.read, 0x44, 4⟩))).response = .data 5000 := by decide +kernel
theorem test_half_word_write_is_a_bus_error : busErrors (step (doing State.reset ⟨.write 0, 0x00, 2⟩)) = true := by
  decide +kernel
theorem test_misaligned_read_is_a_bus_error : busErrors (step (doing State.reset ⟨.read, 0x02, 4⟩)) = true := by
  decide +kernel
theorem test_illegal_word :
    let t := after (step (State.reset.withFetchWord 32 0xFFFFFFFF))
    t.cmd = 0xFFFFFFFF#32 ∧ t.status = 1#4 := by decide +kernel
theorem test_fetch_runs :
    ∀ w ∈ [0x0, 0x701, 0x711, 0x2, 0x3, 0x13, 0x4, 0x14, 0x5, 0x6], goesOn (step (State.reset.withFetchWord 32 w)) = true ∧
      (after (step (State.reset.withFetchWord 32 w))).cmd.toNat = w := by decide +kernel
theorem test_idle : step State.reset = .next State.reset := rfl
theorem test_reset_release :
    let s : State := { speeds 5 6 with inReset := true, pending := [.resetRelease] }
    (after (step s)).neutralSpeed = 0#16 ∧ (after (step s)).inReset = false := by decide +kernel

/-! ## Programs and the boot contract -/

theorem test_assemble : assemble ⟨"norm", some 3⟩ = some 0x301#32 ∧ assemble ⟨"NORMI", some 8⟩ = none := by decide +kernel
theorem test_setcal : (Pseudo.setcal 1 3 6).expand.mapM Stmt.access = some [⟨.write 0x00060003#32, 0x64, 4⟩] := by
  decide +kernel

/-- The boot sequence of program P2, up to its first LOOP. -/
def bootOfP2 : List Access :=
  (List.finRange 8).map (fun i => ⟨.write 0x0BB803E8#32, (Reg.cal i).offset, 4⟩) ++
  [⟨.write 0x3F000000#32, 0x24, 4⟩, ⟨.write 0x3E800000#32, 0x28, 4⟩, ⟨.write 0x3E000000#32, 0x2C, 4⟩,
   ⟨.write 6000#32, 0x30, 4⟩, ⟨.write 24000#32, 0x34, 4⟩, ⟨.write 0xFFFFFFF6#32, 0x18, 4⟩, commandWrite 5#32,
   ⟨.write 0x3C23D70A#32, 0x10, 4⟩, commandWrite 6#32]

theorem test_boot_contract_kept : keepsBootContract bootOfP2 = true := by decide +kernel
theorem test_boot_contract_rewrite : keepsBootContract (bootOfP2 ++ [⟨.write 0#32, 0x24, 4⟩]) = false := by decide +kernel

/-- A byte-wide write of CAL[0] is refused (20_memory.md R64), so CAL[0] is not written. -/
theorem test_boot_contract_refused_write :
    keepsBootContract (⟨.write 0x0BB803E8#32, 0x60, 1⟩ :: bootOfP2.drop 1) = false := by decide +kernel
theorem test_boot_contract_refused_rewrite :
    keepsBootContract (bootOfP2 ++ [⟨.write 0#32, 0x24, 2⟩]) = true := by decide +kernel

/-! ## Witnesses: states and operands that meet the statements' hypotheses -/

theorem witness_CommandWordsRunByTheOpcodeMap_legal : ∃ r ∈ opcodeTable, r.matchesWord 0x711#32 = true := by decide +kernel
theorem witness_CommandWordsRunByTheOpcodeMap_illegal : ¬ ∃ r ∈ opcodeTable, r.matchesWord 0x7#32 = true := by decide +kernel
theorem witness_NopResult : (0x00000080#32).extractLsb' 0 4 = 0x0#4 ∧ 0x00000080#32 ≠ 0x00000000#32 := by decide
theorem witness_ReservedOperationsAreIllegal :
    7 ≤ ((0x00000717#32).extractLsb' 0 4).toNat ∧ 7 ≤ ((0x0000000F#32).extractLsb' 0 4).toNat := by decide +kernel
theorem witness_HostWritesActByAccessCode :
    Reg.cmd.access = .cmdw ∧ Reg.status.access = .w1c ∧ (Reg.cal 7).access = .rw ∧ Reg.opa.access = .rw ∧
    (Reg.sample 0).access = .ro ∧ (Reg.reserved 7).access = .reserved ∧ (0x02 % 4 ≠ 0) ∧ (0xFC < 0x100) := by decide +kernel
theorem witness_HostReadsHaveNoSideEffect :
    let s := { State.reset with pending := [.access ⟨.read, Reg.kp.offset, 4⟩ Window.quiet,
      .access ⟨.read, Reg.kp.offset, 4⟩ ⟨[⟨0, 1⟩], Vector.replicate 8 1⟩] }
    s.inReset = false ∧ (∀ i, Reg.kp ≠ .sample i) ∧ Window.quiet.writes = [] ∧
      s.pending = .access ⟨.read, Reg.kp.offset, 4⟩ Window.quiet ::
        [.access ⟨.read, Reg.kp.offset, 4⟩ ⟨[⟨0, 1⟩], Vector.replicate 8 1⟩] := by decide +kernel
theorem witness_StepRunsTheHostWrite :
    let s := doing State.reset ⟨.write 0x00060003#32, 0x7C, 4⟩
    s.inReset = false ∧ s.pending = .access ⟨.write 0x00060003#32, (Reg.cal 7).offset, 4⟩ Window.quiet :: [] ∧
    (Reg.cal 7).access = .rw ∧ Reg.status.access = .w1c ∧ (Reg.norm 0).access = .ro ∧
    (Reg.reserved 0).access = .reserved := by decide +kernel
theorem witness_ReservedSpaceReadsZero :
    (0xE0 % 4 = 0 ∧ 0xE0 ≤ 0xE0 ∧ 0xE0 ≤ 0xFC) ∧ (0xFC % 4 = 0 ∧ 0xE0 ≤ 0xFC ∧ 0xFC ≤ 0xFC) := by decide +kernel
theorem witness_OnlyRefusedAccessesStop :
    let s := doing State.reset ⟨.read, 0x100, 4⟩
    s.inReset = false ∧ s.pending = .access ⟨.read, 0x100, 4⟩ Window.quiet :: [] ∧ 0xFC < 0x100 := by decide +kernel
theorem witness_StepRunsTheDecodedCommand :
    let s := doing State.reset (commandWrite 0x711#32)
    s.inReset = false ∧ s.pending = .access (commandWrite 0x711#32) Window.quiet :: [] ∧
      decode 0x711#32 = .ok (.normi 7) := by decide +kernel
theorem witness_IllegalWordSetsOnlyIllcmd :
    let s := { State.reset with pending := [.access (commandWrite 0x7#32) Window.quiet,
      .access (commandWrite (encode .nop)) Window.quiet] }
    s.inReset = false ∧ s.pending = .access (commandWrite 0x7#32) Window.quiet ::
      [.access (commandWrite (encode .nop)) Window.quiet] ∧ Window.quiet.writes = [] := by decide +kernel
theorem witness_IllegalWordSetsOnlyIllcmd_word (i : Instr) : encode i ≠ 0x7#32 := by
  cases i <;> first | decide +kernel | (rename_i ch; revert ch; decide +kernel)
theorem witness_FlagsAreSticky :
    let s := doing { State.reset with status := 8 } (commandWrite 0#32)
    s.flag .degen = true ∧ goesOn (step s) = true ∧ goesOn (exec .nop s) = true := by decide +kernel
theorem witness_ResultRegistersHaveOnlyTheirWriters :
    let s := doing { State.reset with tickIn := 9, dtIn := 0x3F800000, errIn := 0x3F800000 } (commandWrite 0x13#32)
    goesOn (step s) = true ∧ s.inReset = false ∧ (after (step s)).integral ≠ s.integral := by decide +kernel
theorem witness_ResultRegistersHaveOnlyTheirWriters_others :
    let s := { sampled (Vector.replicate 8 3000) with tickIn := 9, neutralSpeed := 5, dutyMax := 6 }
    (after (step (doing s (commandWrite 0x5#32)))).elapsed ≠ s.elapsed ∧
    (after (step (doing s (commandWrite 0x1#32)))).normOut ≠ s.normOut ∧
    (after (step (doing s (commandWrite 0x2#32)))).norm ≠ s.norm ∧
    (after (step (doing s (commandWrite 0x4#32)))).dutyL ≠ s.dutyL := by decide +kernel
theorem witness_HostRegistersChangeOnlyByTheHost :
    let s := doing State.reset ⟨.write 1#32, 0x24, 4⟩
    goesOn (step s) = true ∧ Reg.kp.access = .rw ∧ (after (step s)).readReg .kp ≠ s.readReg .kp := by decide +kernel
theorem witness_EveryStepKeepsTheInvariant : Inv State.reset ∧ goesOn (step State.reset) = true :=
  ⟨⟨by unfold DutyShown; decide +kernel, by unfold DutyShown; decide +kernel, by decide +kernel, by unfold NormInRange; decide +kernel,
    by unfold NormInRange; decide +kernel, by decide +kernel⟩, rfl⟩
theorem witness_SampleReadDrawsFromTheWindow :
    (∀ w ∈ (racing 0 1).window.writes, w.ch ≠ 3) ∧
    (¬ ∀ i : Chan, (3000 : Half) = (racing 0 1).heldSample i ∨
      ∃ w ∈ (racing 0 1).window.writes, w.ch = i ∧ (3000 : Half) = w.value) ∧
    ∀ i : Chan, (1000 : Half) = (racing 0 1).heldSample i ∨
      ∃ w ∈ (racing 0 1).window.writes, w.ch = i ∧ (1000 : Half) = w.value := by decide +kernel
theorem witness_OnlyTheSampleSourceWritesThePort :
    goesOn (step { State.reset with pending := [.sampleWrite ⟨4, 77⟩] }) = true ∧
    (after (step { State.reset with pending := [.sampleWrite ⟨4, 77⟩] })).sample[4] = .holds 77 ∧
    (after (step { State.reset with pending := [.access (commandWrite 0#32)
      ⟨[⟨4, 77⟩, ⟨4, 78⟩], Vector.replicate 8 0⟩] })).sample[4] = .holds 78 := by decide +kernel
theorem witness_OtherCommandsIgnoreThePort :
    (∀ ch, Instr.normi 3 ≠ .norm ch) ∧ Instr.normi 3 ≠ .est ∧ Instr.normi 3 ≠ .loop := by decide +kernel
theorem witness_NormalizeStaysInScale :
    let c : Cal := ⟨1000, 3000⟩
    c.min.toNat < c.max.toNat ∧ c.min.toNat ≤ (2000 : Half).toNat ∧ (2000 : Half).toNat ≤ c.max.toNat ∧
      (⟨7, 7⟩ : Cal).min = (⟨7, 7⟩ : Cal).max := by decide +kernel
theorem witness_NormResult :
    Claims.isDegenerate (State.reset.cal[(0 : Chan)]) ∧
    ¬ Claims.isDegenerate ((sampled (Vector.replicate 8 0)).cal[(7 : Chan)]) := by
  unfold Claims.isDegenerate; decide +kernel
theorem witness_EqualChannelsGiveZeroOffset :
    let s := sampled (Vector.replicate 8 2000)
    ∀ i : Chan, Claims.normalized s.cal[i] (s.sampleRead i) = 5000 := by decide +kernel
theorem witness_ClampedDeltaIsPositive :
    fgt 0x3F800000#32 0x358637BD#32 = true ∧ fgt 0x358637BD#32 0x358637BD#32 = false ∧
    isNaN 0x7FC00000#32 = true ∧ sign 0xC0A00000#32 = true ∧ mag 0x358637BD#32 ≤ 0x358637BD := by decide +kernel
theorem witness_IntegralClampIsOneSided :
    fadd 0 (fmul 0x7F800000#32 0x3F800000#32) = 0x7F800000#32 ∧
    fadd 0 (fmul 0xFF800000#32 0x3F800000#32) = 0xFF800000#32 ∧
    isNaN (fadd 0 (fmul 0x7FC00000#32 0x3F800000#32)) = true ∧
    sign (fadd 0 (fmul 0xBF800000#32 0x3F800000#32)) = true := by decide +kernel
theorem witness_StuckIntegralStaysStuck :
    isNaN 0x7FC00000#32 = true ∧ isNaN (fmul 0x3F800000#32 (clampDt 0x3F800000#32)) = false ∧
    fmul 0x3F800000#32 (clampDt 0x3F800000#32) ≠ 0x7F800000#32 ∧ isFinite 0xFF7FFFFF#32 = true ∧
    isFinite 0x7F7FFFFF#32 = true ∧ fmul 0xFF7FFFFF#32 (clampDt 0x7F7FFFFF#32) = 0xFF800000#32 := by decide +kernel
theorem witness_IntegralNeverDecreases :
    isFinite 0x49742400#32 = true ∧ sign 0x49742400#32 = false ∧ 0 < mag 0x49742400#32 ∧
    isFinite (clampDt 0x3F800000#32) = true ∧ isFinite State.reset.integral = true ∧
    scaled State.reset.integral ≤ scaled 0x5F7FFFFF#32 := by decide +kernel
theorem witness_ZeroErrorLeavesTheIntegralAtZero :
    mag 0x80000000#32 = 0 ∧ mag State.reset.integral = 0 ∧ isFinite 0x3F800000#32 = true ∧
    isFinite (clampDt 0x3F800000#32) = true ∧ mag State.reset.prevError = 0 ∧
    isNaN (fmul 0x3F800000#32 (fdiv (fsub 0 0x42480000#32) 0x3F800000#32)) = false ∧
    isNaN (fmul 0 (fdiv (fsub 0 0x7F800000#32) 0x3F800000#32)) = true := by decide +kernel
theorem witness_StepsController :
    (Claims.StepsController { State.reset with offset := 8750 } .pid (i2f 8750) ∧
      goesOn (exec .pid { State.reset with offset := 8750 }) = true) ∧
    (Claims.StepsController State.reset .pidi 0 ∧ goesOn (exec .pidi State.reset) = true) ∧
    (∃ e, Claims.StepsController State.reset .loop e) ∧ goesOn (exec .loop State.reset) = true :=
  ⟨⟨.inl ⟨rfl, by decide +kernel⟩, rfl⟩, ⟨.inr (.inl ⟨rfl, rfl⟩), rfl⟩,
    ⟨_, .inr (.inr ⟨rfl, _, rfl, rfl⟩)⟩, rfl⟩
theorem witness_TickPseudoMeasuresElapsedTime : State.reset.inReset = false ∧ State.reset.pending = [] := by decide +kernel
theorem witness_Binary32Statements :
    isFinite 0x3F800000#32 = true ∧ isFinite 0x80000001#32 = true ∧ mag 0x00000001#32 ≠ 0 ∧
    isNaN 0x7F800001#32 = true ∧ isNaN (fsub 0x7F800000#32 0x7F800000#32) = true ∧
    isNaN (fmul 0x7F800000#32 0) = true ∧ isNaN (fdiv 0 0) = true ∧
    isNaN (fadd 0x7F800000#32 0xFF800000#32) = true := by decide +kernel
theorem witness_MapStatements :
    Claims.pairIsLegal (speeds 6000 24000) ∧ Claims.pairIsLegal (speeds (-24000) 24000) ∧
    ¬ Claims.pairIsLegal (speeds 7000 6000) ∧ ¬ Claims.pairIsLegal (speeds 0 (-32768)) ∧
    0 ≤ (speeds 6000 24000).neutralSpeed.toInt ∧ goesOn (exec .map (speeds 6000 24000)) = true := by
  unfold Claims.pairIsLegal; decide +kernel
theorem witness_SteeringRaisesOneSideOnly :
    let s := { speeds 6000 24000 with corrIn := 0xC6EA6000 }
    Claims.MapsCorrection s .mapi 0xC6EA6000#32 ∧ isNaN 0xC6EA6000#32 = false ∧ sign 0xC6EA6000#32 = true ∧
      mag 0x80000000#32 = 0 ∧ sign 0x46EA6000#32 = false := ⟨.inr (.inl ⟨rfl, rfl⟩), by decide +kernel⟩
theorem witness_SteeringRaisesOneSideOnly_loop :
    ∃ c, Claims.MapsCorrection State.reset .loop c ∧ Claims.pairIsLegal State.reset :=
  ⟨_, .inr (.inr ⟨rfl, _, rfl, rfl⟩), by unfold Claims.pairIsLegal; decide⟩
theorem witness_TruncationRoundsTowardZero :
    isFinite 0xC2C70000#32 = true ∧ f2iTrunc 0xC2C70000#32 = -99 ∧ f2iTrunc 0x3F7FFFFF#32 = 0 := by decide +kernel
theorem witness_InfiniteOperandsFollowIeee :
    isInf 0x7F800000#32 = true ∧ isInf 0xFF800000#32 = true ∧ sign 0x7F800000#32 ≠ sign 0xFF800000#32 ∧
    isFinite 0x80000000#32 = true ∧ mag 0x80000000#32 = 0 ∧ isNaN 0x00000001#32 = false ∧ mag 0x00000001#32 ≠ 0 ∧
    scaled 0x3F800000#32 + scaled 0xBF800000#32 = 0 ∧ scaled 0x80000000#32 + scaled 0x80000000#32 = 0 := by
  decide +kernel
theorem witness_LinesShowSignAndMagnitude :
    (lines 32767 = 0x00007FFF#32) ∧ (lines (-32767) = 0x7FFF0000#32) ∧ (lines 0 = 0#32) := by decide +kernel
theorem witness_LoopEqualsEstPidMap :
    let d : Vector Nat 8 := Vector.replicate 8 0
    let s := { sampled (Vector.replicate 8 1000) with pending := [.access (commandWrite 2#32) ⟨[], d⟩,
      .access (commandWrite 3#32) ⟨[], d⟩, .access (commandWrite 4#32) ⟨[], d⟩] }
    s.inReset = false ∧ goesOn (Sys2Proof.core.run 3 s) = true ∧
      goesOn (step { s with pending := [.access (commandWrite 6#32) ⟨[], d⟩] }) = true := by decide +kernel
theorem witness_AssertingResetPutsTheBlockInReset :
    let s := { speeds 5 6 with pending := [.resetAssert, .resetRelease] }
    let u := { speeds 5 6 with pending := [.resetRelease] }
    s.pending = .resetAssert :: [.resetRelease] ∧ (after (step s)).inReset = true ∧
    u.inReset = false ∧ u.pending = .resetRelease :: [] := by decide +kernel
theorem witness_ResetStatements :
    let s := { State.reset with inReset := true, pending := [.access (commandWrite 6#32) Window.quiet] }
    let u := { State.reset with inReset := true, pending := [.resetRelease] }
    s.inReset = true ∧ s.pending = .access (commandWrite 6#32) Window.quiet :: [] ∧
    u.pending = .resetRelease :: [] ∧ goesOn (step u) = true ∧ (∀ i, Reg.kp ≠ .sample i) := by decide +kernel

end Sys2Proof.Tests
end

/-! PROOFS. The register map as a host access sees it, and the reserved space of 10_state.md R47. -/

namespace Sys2Proof.Machine

/-! ## The register at an offset (10_state.md R23) -/

/-- The registers in the window's order: `Reg.ofIndex` inverts `Reg.offset`. -/
theorem Reg.ofIndex_offset (r : Reg) : Reg.ofIndex (r.offset / 4) = r := by
  cases r with
  | cal i | range i | norm i | sample i | reserved i => revert i; decide
  | _ => rfl

/-- Every register is found at its own offset. -/
@[simp] theorem Reg.ofOffset_offset (r : Reg) : Reg.ofOffset r.offset = some r := by
  have hacc : r.offset % 4 = 0 ∧ r.offset ≤ 0xFC := by
    simpa [Access.accepted] using accepted_at_offset .read r
  rw [Reg.ofOffset, if_pos hacc, Reg.ofIndex_offset]

/-- The words 0xE0 to 0xFC are the eight reserved registers (10_state.md R47). -/
theorem Reg.exists_reserved_offset {off : Nat} (halign : off % 4 = 0) (hlo : 0xE0 ≤ off) (hhi : off ≤ 0xFC) :
    ∃ i : Chan, (Reg.reserved i).offset = off := by
  have hlt : (off - 0xE0) / 4 < 8 := by omega
  refine ⟨⟨(off - 0xE0) / 4, hlt⟩, ?_⟩
  simp only [Reg.offset]
  omega

/-! ## Host reads and writes at a register's offset (20_memory.md R62, R63) -/

@[simp] theorem memRead_offset (r : Reg) (s : State) : memRead r.offset s = some (s.readReg r) := by
  simp [memRead]

/-- Only a write to CMD runs a command; any other write is `writeReg`. -/
theorem memWrite_offset_of_ne_cmd {r : Reg} (hr : r ≠ .cmd) (v : Word) (s : State) :
    memWrite r.offset v s = .next (s.writeReg r v) := by
  unfold memWrite
  rw [Reg.ofOffset_offset]
  cases r with
  | cmd => exact absurd rfl hr
  | _ => rfl

/-! ## Reserved bits -/

/-- The bits above a value that was zero-extended to a word read 0. -/
theorem extractLsb'_setWidth_above {n w len : Nat} (x : BitVec n) :
    (x.setWidth w).extractLsb' n len = 0#len := by
  ext k hk
  simp

/-! ## The obligation -/

/-- Settles O9: the offsets 0xE0 to 0xFC are reserved registers, which read 0 and ignore writes, and the
reserved bits lie above a zero-extended field. -/
theorem reservedSpaceReadsZero : Obligations.ReservedSpaceReadsZero := by
  intro s v
  refine ⟨fun off halign hlo hhi => ?_, ?_, ?_, fun i => ?_⟩
  · obtain ⟨i, rfl⟩ := Reg.exists_reserved_offset halign hlo hhi
    exact ⟨memRead_offset _ s, memWrite_offset_of_ne_cmd (by simp) v s⟩
  · exact extractLsb'_setWidth_above s.status
  · exact extractLsb'_setWidth_above s.opa
  · exact extractLsb'_setWidth_above (s.sampleRead i)

end Sys2Proof.Machine

/-! PROOFS. What a host write does, by access code (20_memory.md R63). -/

namespace Sys2Proof.Machine

/-! ## `writeReg`, field by field -/

section

variable (s : State) (r : Reg) (v : Word)

@[simp] theorem State.writeReg_status :
    (s.writeReg r v).status = if r = .status then s.status &&& ~~~(v.extractLsb' 0 4) else s.status := by
  cases r <;> rfl
@[simp] theorem State.writeReg_opa :
    (s.writeReg r v).opa = if r = .opa then v.extractLsb' 0 16 else s.opa := by cases r <;> rfl
@[simp] theorem State.writeReg_errIn :
    (s.writeReg r v).errIn = if r = .errIn then v else s.errIn := by cases r <;> rfl
@[simp] theorem State.writeReg_dtIn :
    (s.writeReg r v).dtIn = if r = .dtIn then v else s.dtIn := by cases r <;> rfl
@[simp] theorem State.writeReg_corrIn :
    (s.writeReg r v).corrIn = if r = .corrIn then v else s.corrIn := by cases r <;> rfl
@[simp] theorem State.writeReg_tickIn :
    (s.writeReg r v).tickIn = if r = .tickIn then v else s.tickIn := by cases r <;> rfl
@[simp] theorem State.writeReg_kp :
    (s.writeReg r v).kp = if r = .kp then v else s.kp := by cases r <;> rfl
@[simp] theorem State.writeReg_ki :
    (s.writeReg r v).ki = if r = .ki then v else s.ki := by cases r <;> rfl
@[simp] theorem State.writeReg_kd :
    (s.writeReg r v).kd = if r = .kd then v else s.kd := by cases r <;> rfl
@[simp] theorem State.writeReg_neutralSpeed :
    (s.writeReg r v).neutralSpeed = if r = .neutralSpeed then v.extractLsb' 0 16 else s.neutralSpeed := by
  cases r <;> rfl
@[simp] theorem State.writeReg_dutyMax :
    (s.writeReg r v).dutyMax = if r = .dutyMax then v.extractLsb' 0 16 else s.dutyMax := by cases r <;> rfl
@[simp] theorem State.writeReg_cal (j : Chan) :
    (s.writeReg r v).cal[j.val] = if r = .cal j then Cal.ofWord v else s.cal[j.val] := by
  cases r with
  | cal i => simp [State.writeReg, Vector.getElem_set, Fin.ext_iff]
  | _ => rfl

@[simp] theorem State.writeReg_cmd : (s.writeReg r v).cmd = s.cmd := by cases r <;> rfl
@[simp] theorem State.writeReg_tickPrev : (s.writeReg r v).tickPrev = s.tickPrev := by cases r <;> rfl
@[simp] theorem State.writeReg_elapsed : (s.writeReg r v).elapsed = s.elapsed := by cases r <;> rfl
@[simp] theorem State.writeReg_integral : (s.writeReg r v).integral = s.integral := by cases r <;> rfl
@[simp] theorem State.writeReg_prevError : (s.writeReg r v).prevError = s.prevError := by cases r <;> rfl
@[simp] theorem State.writeReg_correction : (s.writeReg r v).correction = s.correction := by cases r <;> rfl
@[simp] theorem State.writeReg_normOut : (s.writeReg r v).normOut = s.normOut := by cases r <;> rfl
@[simp] theorem State.writeReg_norm : (s.writeReg r v).norm = s.norm := by cases r <;> rfl
@[simp] theorem State.writeReg_offset : (s.writeReg r v).offset = s.offset := by cases r <;> rfl
@[simp] theorem State.writeReg_dutyL : (s.writeReg r v).dutyL = s.dutyL := by cases r <;> rfl
@[simp] theorem State.writeReg_dutyR : (s.writeReg r v).dutyR = s.dutyR := by cases r <;> rfl
@[simp] theorem State.writeReg_pwmL : (s.writeReg r v).pwmL = s.pwmL := by cases r <;> rfl
@[simp] theorem State.writeReg_pwmR : (s.writeReg r v).pwmR = s.pwmR := by cases r <;> rfl
@[simp] theorem State.writeReg_sample : (s.writeReg r v).sample = s.sample := by cases r <;> rfl
@[simp] theorem State.writeReg_inReset : (s.writeReg r v).inReset = s.inReset := by cases r <;> rfl
@[simp] theorem State.writeReg_window : (s.writeReg r v).window = s.window := by cases r <;> rfl
@[simp] theorem State.writeReg_response : (s.writeReg r v).response = s.response := by cases r <;> rfl
@[simp] theorem State.writeReg_pending : (s.writeReg r v).pending = s.pending := by cases r <;> rfl
@[simp] theorem State.writeReg_freeCount : (s.writeReg r v).freeCount = s.freeCount := by cases r <;> rfl

end

/-- A host write leaves the Sample Source's port and the free values as they are. -/
@[simp] theorem State.sampleRead_writeReg (s : State) (r : Reg) (v : Word) (i : Chan) :
    (s.writeReg r v).sampleRead i = s.sampleRead i := by
  simp [State.sampleRead, State.sampleValues, State.heldSample]

/-! ## Implemented bits -/

/-- A field of the low `n` bits, zero-extended again, is the word under the field's mask. -/
theorem setWidth_extractLsb'_zero (v : Word) {n : Nat} (hn : n ≤ 32) :
    (v.extractLsb' 0 n).setWidth 32 = v &&& BitVec.ofNat 32 (2 ^ n - 1) := by
  have hlt : 2 ^ n - 1 < 2 ^ 32 :=
    Nat.lt_of_lt_of_le (Nat.sub_lt Nat.one_le_two_pow Nat.one_pos) (Nat.pow_le_pow_right Nat.two_pos hn)
  apply BitVec.eq_of_toNat_eq
  rw [BitVec.toNat_and, BitVec.toNat_ofNat, Nat.mod_eq_of_lt hlt, Nat.and_two_pow_sub_one_eq_mod,
    BitVec.toNat_setWidth_of_le hn, BitVec.extractLsb'_toNat, Nat.shiftRight_zero]

/-- The bounds stored by a write of CAL[i] read back as the word written (10_state.md R33). -/
theorem Cal.toWord_ofWord (v : Word) : (Cal.ofWord v).toWord = v := by
  apply BitVec.eq_of_getLsbD_eq
  intro k hk
  simp only [Cal.toWord, Cal.ofWord, BitVec.getLsbD_append, BitVec.getLsbD_extractLsb']
  by_cases hlow : k < 16
  · simp [hlow]
  · simp [hlow, show k - 16 < 16 by omega, show 16 + (k - 16) = k by omega]

/-- RANGE[i] is exact as an s32 (10_state.md R34). -/
theorem Cal.toInt_ofInt_range (c : Cal) : (BitVec.ofInt 32 c.range).toInt = c.range := by
  have hmin := c.min.isLt
  have hmax := c.max.isLt
  apply BitVec.toInt_ofInt_eq_self (by decide) <;> simp only [Cal.range] <;> omega

/-! ## Access codes -/

theorem Reg.access_eq_cmdw {r : Reg} : r.access = .cmdw ↔ r = .cmd := by
  cases r <;> simp [Reg.access]

theorem Reg.access_eq_w1c {r : Reg} : r.access = .w1c ↔ r = .status := by
  cases r <;> simp [Reg.access]

theorem Reg.mem_touchedByWrite_self (r : Reg) : r ∈ r.touchedByWrite := by
  cases r <;> simp [Reg.touchedByWrite]

/-! ## Register reads after a write -/

/-- An RW register reads back the implemented bits of the word written (10_state.md R26 to R37). -/
theorem State.readReg_writeReg_of_rw {r : Reg} (h : r.access = .rw) (s : State) (v : Word) :
    (s.writeReg r v).readReg r = r.readBack v := by
  cases r with
  | opa => exact setWidth_extractLsb'_zero v (n := 16) (by decide)
  | cal i => simp [State.readReg, Reg.readBack, Cal.toWord_ofWord]
  | errIn | dtIn | corrIn | tickIn | kp | ki | kd | neutralSpeed | dutyMax => rfl
  | _ => cases h

/-- A write of STATUS clears the flags whose bits are written 1 (10_state.md R25). -/
theorem State.readReg_writeReg_status (s : State) (v : Word) :
    (s.writeReg .status v).readReg .status = s.readReg .status &&& ~~~(v &&& 0x0000000F#32) := by
  have hmask : v &&& 0x0000000F#32 = (v.extractLsb' 0 4).setWidth 32 :=
    (setWidth_extractLsb'_zero v (n := 4) (by decide)).symm
  rw [hmask]
  ext k hk
  by_cases hk4 : k < 4
  · simp [State.readReg, hk4, hk]
  · simp [State.readReg, BitVec.getLsbD_of_ge s.status k (by omega)]

/-- RANGE[i] follows a write of CAL[i] at the same moment (20_memory.md R63). -/
theorem State.readReg_range_writeReg_cal (s : State) (i : Chan) (v : Word) :
    ((s.writeReg (.cal i) v).readReg (.range i)).toInt =
      ((v.extractLsb' 16 16).toNat : Int) - (v.extractLsb' 0 16).toNat := by
  have hcal : (s.writeReg (.cal i) v).cal[i] = Cal.ofWord v := by simp
  rw [State.readReg, hcal, Cal.toInt_ofInt_range]
  rfl

/-- A register outside `touchedByWrite` reads as before the write. -/
theorem State.readReg_writeReg_of_not_mem {r q : Reg} (h : q ∉ r.touchedByWrite) (s : State) (v : Word) :
    (s.writeReg r v).readReg q = s.readReg q := by
  have hne : r ≠ q := fun hrq => h (hrq ▸ r.mem_touchedByWrite_self)
  cases q with
  | range j =>
    have hcal : r ≠ .cal j := by rintro rfl; simp [Reg.touchedByWrite] at h
    simp [State.readReg, hcal]
  | _ => simp [State.readReg, hne]

theorem State.onlyChanges_writeReg (s : State) (r : Reg) (v : Word) :
    OnlyChanges r.touchedByWrite s (s.writeReg r v) :=
  ⟨fun _ hq => State.readReg_writeReg_of_not_mem hq s v, by simp⟩

/-- The host's write of an RO or reserved register is ignored (20_memory.md R63). -/
theorem State.writeReg_of_ro_or_reserved {r : Reg} (h : r.access = .ro ∨ r.access = .reserved)
    (s : State) (v : Word) : s.writeReg r v = s := by
  cases r with
  | status | opa | errIn | dtIn | corrIn | tickIn | kp | ki | kd | neutralSpeed | dutyMax | cal i =>
    simp [Reg.access] at h
  | _ => rfl

/-! ## Host writes -/

/-- An offset that is not a multiple of 4 or lies beyond 0xFC is a bus error (20_memory.md R64). -/
theorem memWrite_refused {off : Nat} (h : off % 4 ≠ 0 ∨ 0xFC < off) (v : Word) (s : State) :
    memWrite off v s = .fault (.busError off 4) := by
  have hnone : Reg.ofOffset off = none := if_neg (by omega)
  rw [memWrite, hnone]

/-- A write of CMD stores the word, then executes it (10_state.md R24). -/
theorem memWrite_cmd (v : Word) (s : State) :
    memWrite Reg.cmd.offset v s = execute v { s with cmd := v } := by
  rw [memWrite, Reg.ofOffset_offset]

/-- Settles O7: outside CMD an accepted write is `writeReg`, whose effect on the register written and on
every other register is said above, one access code at a time. -/
theorem hostWritesActByAccessCode : Obligations.HostWritesActByAccessCode := by
  intro s v
  refine ⟨fun off hoff => memWrite_refused hoff v s, fun r => ⟨fun hcmdw => ?_, fun hw1c => ?_, fun hrw => ?_,
    fun hignored => ?_⟩⟩
  · obtain rfl := Reg.access_eq_cmdw.mp hcmdw
    exact memWrite_cmd v s
  · obtain rfl := Reg.access_eq_w1c.mp hw1c
    exact ⟨_, memWrite_offset_of_ne_cmd (by simp) v s, s.readReg_writeReg_status v,
      s.onlyChanges_writeReg .status v⟩
  · have hne : r ≠ .cmd := by rintro rfl; cases hrw
    refine ⟨_, memWrite_offset_of_ne_cmd hne v s, State.readReg_writeReg_of_rw hrw s v,
      s.onlyChanges_writeReg r v, ?_⟩
    rintro i rfl
    exact s.readReg_range_writeReg_cal i v
  · have hne : r ≠ .cmd := by rintro rfl; simp [Reg.access] at hignored
    rw [memWrite_offset_of_ne_cmd hne, State.writeReg_of_ro_or_reserved hignored]

end Sys2Proof.Machine

/-! PROOFS. The decoder, the encoder and the opcode map agree on every command word (30_encoding.md R81,
R85, R86). -/

namespace Sys2Proof

/-! ## The fields of an instruction's word (30_encoding.md R80, R81) -/

/-- The fields of `encode i`: the row's OP and S, the channel of NORM and NORMI, 0 elsewhere. -/
def Instr.fields : Instr → C32
  | .nop => ⟨0, 0, 0, 0, 0⟩
  | .norm ch => ⟨1, 0, 0, BitVec.ofFin ch, 0⟩
  | .normi ch => ⟨1, 1, 0, BitVec.ofFin ch, 0⟩
  | .est => ⟨2, 0, 0, 0, 0⟩
  | .pid => ⟨3, 0, 0, 0, 0⟩
  | .pidi => ⟨3, 1, 0, 0, 0⟩
  | .map => ⟨4, 0, 0, 0, 0⟩
  | .mapi => ⟨4, 1, 0, 0, 0⟩
  | .tdelta => ⟨5, 0, 0, 0, 0⟩
  | .loop => ⟨6, 0, 0, 0, 0⟩

@[simp] theorem C32.ofWord_encode (i : Instr) : C32.ofWord (encode i) = i.fields := by
  cases i with
  | norm ch | normi ch => revert ch; decide
  | _ => rfl

theorem encode_eq_iff {i : Instr} {w : Word} : encode i = w ↔ i.fields = C32.ofWord w := by
  rw [← C32.ofWord_encode]
  exact ⟨congrArg C32.ofWord, C32.ofWord_inj⟩

/-- No instruction has a reserved operation (30_encoding.md R86). -/
theorem Instr.fields_op_lt (i : Instr) : i.fields.op.toNat < 7 := by
  cases i <;> simp [Instr.fields]

/-! ## The decoder inverts the encoder (30_encoding.md R85) -/

theorem decode_encode (i : Instr) : decode (encode i) = .ok i := by
  simp only [decode, C32.ofWord_encode]
  cases i <;> simp [Instr.fields, decodeRow]

/-- The row a lookup answers has the OP and S it was looked up by; only OP = 1 has a channel (30_encoding.md
R83). -/
theorem fields_of_decodeRow {op src : Nat} {ch : Chan} {i : Instr} (h : decodeRow op src ch = .ok i) :
    i.fields = ⟨BitVec.ofNat 4 op, BitVec.ofNat 1 src, 0, if op = 1 then BitVec.ofFin ch else 0, 0⟩ := by
  unfold decodeRow at h
  split at h <;> cases h <;> rfl

/-- The fields that pass the decoder's checks are those of their row: the reserved ones are 0, and so is CH
where the row has no channel. -/
theorem fields_eq_of_checks {f : C32} {i : Instr}
    (hrow : decodeRow f.op.toNat f.src.toNat ⟨f.ch.toNat, f.ch.isLt⟩ = .ok i)
    (hreserved : ¬(f.high ≠ 0 ∨ f.low ≠ 0)) (hchannel : ¬(f.ch ≠ 0 ∧ f.op ≠ 1)) : i.fields = f := by
  obtain ⟨op, src, low, ch, high⟩ := f
  obtain ⟨rfl, rfl⟩ : high = 0 ∧ low = 0 := by simpa using hreserved
  have hch : (if op.toNat = 1 then ch else 0#3) = ch := by
    split_ifs with hop1
    · rfl
    · have hne : op ≠ 1 := fun h => hop1 (congrArg BitVec.toNat h)
      exact (not_not.mp fun hch0 => hchannel ⟨hch0, hne⟩).symm
  simpa [hch] using fields_of_decodeRow hrow

theorem encode_of_decode {w : Word} {i : Instr} (h : decode w = .ok i) : encode i = w := by
  simp only [decode] at h
  split_ifs at h with hreserved hop hsource hchannel
  exact encode_eq_iff.mpr (fields_eq_of_checks h hreserved hchannel)

theorem decode_eq_ok_iff {w : Word} {i : Instr} : decode w = .ok i ↔ encode i = w :=
  ⟨encode_of_decode, fun h => h ▸ decode_encode i⟩

/-! ## The rows of the opcode map (30_encoding.md R81) -/

theorem Instr.row_mem_opcodeTable (i : Instr) : i.row ∈ opcodeTable := by
  cases i <;> simp [opcodeTable, Instr.row]

/-- The per-instruction family of Laws/PerInstr, for every instruction. -/
theorem encodesRow : ∀ i : Instr, Laws.EncodesRow.Statement i
  | .nop => Laws.EncodesRow.nop
  | .norm ch => Laws.EncodesRow.norm ch
  | .normi ch => Laws.EncodesRow.normi ch
  | .est => Laws.EncodesRow.est
  | .pid => Laws.EncodesRow.pid
  | .pidi => Laws.EncodesRow.pidi
  | .map => Laws.EncodesRow.map
  | .mapi => Laws.EncodesRow.mapi
  | .tdelta => Laws.EncodesRow.tdelta
  | .loop => Laws.EncodesRow.loop

theorem Instr.matchesWord_row_encode (i : Instr) : i.row.matchesWord (encode i) = true :=
  (encodesRow i i.row i.row_mem_opcodeTable).mpr rfl

/-- A word is its bits outside a field put together with the field. -/
theorem and_not_field_or_field {n : Nat} (w : BitVec n) (start len : Nat) :
    w &&& ~~~((BitVec.allOnes len).setWidth n <<< start) ||| ((w.extractLsb' start len).setWidth n <<< start) =
      w := by
  ext k hk
  by_cases hlow : k < start
  · simp [hlow]
  · by_cases hfield : k - start < len
    · simp [hlow, hfield, show start + (k - start) = k by omega, hk]
    · simp [hlow, hfield]

/-- The mask of the NORM and NORMI rows leaves out CH and nothing else (30_encoding.md R81). -/
theorem pattern_or_channel {w p : Word} (h : w &&& 0xFFFFF8FF#32 = p) :
    p ||| (BitVec.ofNat 32 (w.extractLsb' 8 3).toNat <<< 8) = w := by
  rw [← h, BitVec.ofNat_toNat]
  exact and_not_field_or_field w 8 3

/-- A word that matches a row of the map is the word of an instruction. -/
theorem exists_encode_of_matchesWord {r : OpcodeRow} (hr : r ∈ opcodeTable) {w : Word}
    (hw : r.matchesWord w = true) : ∃ i, encode i = w := by
  obtain ⟨i, -, rfl⟩ := List.mem_map.mp hr
  have hrow : w &&& i.row.mask = i.row.pattern := by simpa [OpcodeRow.matchesWord] using hw
  have hfull (hmask : i.row.mask = BitVec.allOnes 32) (hpat : i.row.pattern = encode i) : encode i = w := by
    rw [← hpat, ← hrow, hmask, BitVec.and_allOnes]
  cases i with
  | norm _ => exact ⟨.norm (w.extractLsb' 8 3).toFin, pattern_or_channel hrow⟩
  | normi _ => exact ⟨.normi (w.extractLsb' 8 3).toFin, pattern_or_channel hrow⟩
  | _ => exact ⟨_, hfull rfl rfl⟩

end Sys2Proof

namespace Sys2Proof.Machine

/-! ## Running a command word (30_encoding.md R85) -/

theorem execute_encode (i : Instr) (s : State) : execute (encode i) s = exec i s := by
  rw [execute, decode_encode]

/-- A word no instruction encodes to only sets ILLCMD. -/
theorem execute_of_not_encode {w : Word} (h : ∀ i, encode i ≠ w) (s : State) :
    execute w s = .next (s.raise .illcmd) := by
  cases hd : decode w with
  | ok i => exact absurd (decode_eq_ok_iff.mp hd) (h i)
  | error _ => rw [execute, hd]

/-- Settles O2: the words that match a row are the words of the instructions. -/
theorem commandWordsRunByTheOpcodeMap : Obligations.CommandWordsRunByTheOpcodeMap := by
  refine fun w s => ⟨?_, fun hnone => ?_⟩
  · rintro ⟨r, hr, hw⟩
    obtain ⟨i, rfl⟩ := exists_encode_of_matchesWord hr hw
    exact ⟨i, rfl, i.matchesWord_row_encode, execute_encode i s⟩
  · refine execute_of_not_encode (fun i hi => hnone ?_) s
    exact ⟨i.row, i.row_mem_opcodeTable, hi ▸ i.matchesWord_row_encode⟩

/-- Settles O3: the OP of every instruction's word is below 7. -/
theorem reservedOperationsAreIllegal : Obligations.ReservedOperationsAreIllegal := by
  refine fun w s hop => execute_of_not_encode (fun i hi => ?_) s
  have hlt : (C32.ofWord w).op.toNat < 7 := encode_eq_iff.mp hi ▸ i.fields_op_lt
  exact absurd hop (Nat.not_le.mpr hlt)

end Sys2Proof.Machine

/-! PROOFS. The normalizer: the value of `normalize`, its bounds and scale, NORM and NORMI
(40_normalize_estimate.md R100 to R103, R106). -/

namespace Sys2Proof.Machine

/-! ## The value of `normalize(raw, i)` (40_normalize_estimate.md R100, R101) -/

theorem Cal.degenerate_iff (c : Cal) : c.degenerate = true ↔ Claims.isDegenerate c :=
  decide_eq_true_iff

theorem normalizeValue_of_degenerate {c : Cal} (h : Claims.isDegenerate c) (raw : Half) :
    normalizeValue c raw = 5000 :=
  if_pos (c.degenerate_iff.mpr h)

theorem normalizeValue_of_not_degenerate {c : Cal} (h : ¬ Claims.isDegenerate c) (raw : Half) :
    normalizeValue c raw =
      Int.tdiv (((raw.toNat : Int) - c.min.toNat) * 10000) ((c.max.toNat : Int) - c.min.toNat) :=
  if_neg (mt c.degenerate_iff.mp h)

/-- The model's value is the one the statements write out. -/
theorem normalizeValue_eq_normalized (c : Cal) (raw : Half) :
    normalizeValue c raw = Claims.normalized c raw := by
  by_cases h : Claims.isDegenerate c
  · exact (normalizeValue_of_degenerate h raw).trans (if_pos h).symm
  · exact (normalizeValue_of_not_degenerate h raw).trans (if_neg h).symm

/-! ## The range of a normalize result (40_normalize_estimate.md R105) -/

/-- A division that rounds toward zero never makes a number larger. -/
theorem abs_tdiv_le_abs (a b : Int) : |a.tdiv b| ≤ |a| := by
  rw [Int.abs_eq_natAbs, Int.abs_eq_natAbs]
  exact Int.ofNat_le.mpr (Int.natAbs_tdiv_le_natAbs a b)

theorem abs_normalizeValue_le (c : Cal) (raw : Half) : |normalizeValue c raw| ≤ 655350000 := by
  by_cases h : Claims.isDegenerate c
  · rw [normalizeValue_of_degenerate h]
    decide
  · rw [normalizeValue_of_not_degenerate h]
    have hraw := raw.isLt
    have hmin := c.min.isLt
    exact (abs_tdiv_le_abs _ _).trans (abs_le.mpr ⟨by omega, by omega⟩)

/-- A normalize result fits an s32. -/
theorem toInt_ofInt_normalizeValue (c : Cal) (raw : Half) :
    (BitVec.ofInt 32 (normalizeValue c raw)).toInt = Claims.normalized c raw := by
  obtain ⟨hlo, hhi⟩ := abs_le.mp (abs_normalizeValue_le c raw)
  rw [← normalizeValue_eq_normalized]
  exact BitVec.toInt_ofInt_eq_self (by decide) (by omega) (by omega)

/-! ## The calibrated span (40_normalize_estimate.md R106) -/

theorem not_isDegenerate_of_lt {c : Cal} (h : c.min.toNat < c.max.toNat) : ¬ Claims.isDegenerate c := by
  unfold Claims.isDegenerate
  omega

theorem normalizeValue_min {c : Cal} (h : ¬ Claims.isDegenerate c) : normalizeValue c c.min = 0 := by
  simp [normalizeValue_of_not_degenerate h]

theorem normalizeValue_max {c : Cal} (h : ¬ Claims.isDegenerate c) : normalizeValue c c.max = 10000 := by
  have hrange : (c.max.toNat : Int) - c.min.toNat ≠ 0 := fun h0 => h h0.le
  rw [normalizeValue_of_not_degenerate h, Int.mul_tdiv_cancel_left _ hrange]

theorem normalizeValue_mono {c : Cal} (h : ¬ Claims.isDegenerate c) {raw raw' : Half}
    (hle : raw.toNat ≤ raw'.toNat) : normalizeValue c raw ≤ normalizeValue c raw' := by
  rw [normalizeValue_of_not_degenerate h, normalizeValue_of_not_degenerate h]
  exact Int.tdiv_le_tdiv (not_le.mp h) (by omega)

/-- Settles O28: normalize is monotone in the raw value, from 0 at MIN to 10000 at MAX. -/
theorem normalizeStaysInScale : Obligations.NormalizeStaysInScale := by
  refine fun c raw => ⟨fun hlt hlo hhi => ?_, fun hlt => ?_, fun heq => ?_⟩
  · have hc := not_isDegenerate_of_lt hlt
    exact ⟨normalizeValue_min hc ▸ normalizeValue_mono hc hlo, normalizeValue_max hc ▸ normalizeValue_mono hc hhi⟩
  · have hc := not_isDegenerate_of_lt hlt
    exact ⟨normalizeValue_min hc, normalizeValue_max hc⟩
  · exact normalizeValue_of_degenerate (by simp [Claims.isDegenerate, heq]) raw

/-! ## NORM and NORMI (40_normalize_estimate.md R102, R103) -/

theorem State.normalizeTo_status_of_degenerate {s : State} {ch : Chan} (h : Claims.isDegenerate s.cal[ch])
    (raw : Half) : (s.normalizeTo ch raw).status = s.status ||| 0b1000#4 := by
  rw [State.normalizeTo_status, if_pos ((Cal.degenerate_iff _).mpr h)]
  rfl

theorem State.normalizeTo_status_of_not_degenerate {s : State} {ch : Chan}
    (h : ¬ Claims.isDegenerate s.cal[ch]) (raw : Half) : (s.normalizeTo ch raw).status = s.status := by
  rw [State.normalizeTo_status, if_neg (mt (Cal.degenerate_iff _).mp h)]

theorem State.onlyChanges_normalizeTo (s : State) (ch : Chan) (raw : Half) :
    OnlyChanges [.normOut, .status] s (s.normalizeTo ch raw) := by
  refine ⟨fun r hr => ?_, by simp⟩
  cases r with
  | normOut | status => simp at hr
  | _ => rfl

/-- NORM and NORMI, whatever the raw value they take. -/
theorem State.normalizeTo_result (s : State) (ch : Chan) (raw : Half) :
    (s.normalizeTo ch raw).normOut.toInt = Claims.normalized s.cal[ch] raw ∧
    (Claims.isDegenerate s.cal[ch] → (s.normalizeTo ch raw).status = s.status ||| 0b1000#4) ∧
    (¬ Claims.isDegenerate s.cal[ch] → (s.normalizeTo ch raw).status = s.status) ∧
    OnlyChanges [.normOut, .status] s (s.normalizeTo ch raw) :=
  ⟨toInt_ofInt_normalizeValue _ raw, fun h => State.normalizeTo_status_of_degenerate h raw,
    fun h => State.normalizeTo_status_of_not_degenerate h raw, s.onlyChanges_normalizeTo ch raw⟩

/-- Settles O25: NORM normalizes the drawn sample. -/
theorem normResult : Obligations.NormResult := fun s ch =>
  ⟨rfl, decode_encode (.norm ch), _, exec_effect (.norm ch) s, s.normalizeTo_result ch (s.sampleRead ch)⟩

/-- Settles O26: NORMI normalizes OPA. -/
theorem normiResult : Obligations.NormiResult := fun s ch =>
  ⟨rfl, _, exec_effect (.normi ch) s, s.normalizeTo_result ch s.opa⟩

end Sys2Proof.Machine

/-! PROOFS. The position estimator (40_normalize_estimate.md R104, R105, R107). -/

namespace Sys2Proof.Machine

/-! ## The weighted sum -/

theorem weightedSum_eq_sum (w : Vector Half 8) (n : Chan → Int) :
    weightedSum w n = ∑ i : Chan, (w[i]).toInt * n i := by
  rw [Fin.sum_univ_eight]
  rfl

/-- The weights are sign-symmetric, so they cancel in pairs (00_scope.md R6). -/
theorem sum_weights : ∑ i : Chan, (Config.weights[i]).toInt = 0 := by
  have hneg : ∑ i : Chan, (Config.weights[i]).toInt = -∑ i : Chan, (Config.weights[i]).toInt :=
    calc ∑ i : Chan, (Config.weights[i]).toInt
        = ∑ i : Chan, -(Config.weights[i.rev]).toInt := Finset.sum_congr rfl fun i _ => Config.weights_rev i
      _ = -∑ i : Chan, (Config.weights[i.rev]).toInt := Finset.sum_neg_distrib _
      _ = -∑ i : Chan, (Config.weights[i]).toInt :=
          congrArg Neg.neg (Equiv.sum_comp Fin.revPerm fun i : Chan => (Config.weights[i]).toInt)
  omega

theorem weightedSum_weights_of_const {n : Chan → Int} {k : Int} (h : ∀ i, n i = k) :
    weightedSum Config.weights n = 0 := by
  simp only [weightedSum_eq_sum, h, ← Finset.sum_mul, sum_weights, zero_mul]

/-- Eight products of an s16 and a normalize result stay below 2^48, whatever the weights. -/
theorem abs_weightedSum_lt (w : Vector Half 8) {n : Chan → Int} (hn : ∀ i, |n i| ≤ 655350000) :
    |weightedSum w n| < 2 ^ 48 := by
  have hterm (i : Chan) : |(w[i]).toInt * n i| ≤ 32768 * 655350000 := by
    have hlo := (w[i]).le_toInt
    have hhi := (w[i]).toInt_lt
    have hw : |(w[i]).toInt| ≤ 32768 := abs_le.mpr ⟨by omega, by omega⟩
    rw [abs_mul]
    exact mul_le_mul hw (hn i) (abs_nonneg _) (by decide)
  calc |weightedSum w n|
      ≤ ∑ i : Chan, |(w[i]).toInt * n i| := weightedSum_eq_sum w n ▸ Finset.abs_sum_le_sum_abs _ _
    _ ≤ 8 • (32768 * 655350000) := Finset.sum_le_card_nsmul _ _ _ fun i _ => hterm i
    _ < 2 ^ 48 := by decide

/-! ## What `estimate` leaves -/

theorem State.liveNorm_eq (s : State) (i : Chan) :
    s.liveNorm i = Claims.normalized s.cal[i] (s.sampleRead i) :=
  normalizeValue_eq_normalized _ _

theorem State.abs_liveNorm_le (s : State) (i : Chan) : |s.liveNorm i| ≤ 655350000 :=
  abs_normalizeValue_le _ _

theorem State.liveNorm_of_degenerate {s : State} {i : Chan} (h : Claims.isDegenerate s.cal[i]) :
    s.liveNorm i = 5000 :=
  normalizeValue_of_degenerate h _

theorem State.estimate_norm_toInt (s : State) (w : Vector Half 8) (i : Chan) :
    ((s.estimate w).norm[i]).toInt = Claims.normalized s.cal[i] (s.sampleRead i) := by
  have hnorm : (s.estimate w).norm[i] = BitVec.ofInt 32 (s.liveNorm i) := by simp
  rw [hnorm, State.liveNorm, toInt_ofInt_normalizeValue]

/-- OFFSET never overflows an s64. -/
theorem State.estimate_offset_toInt (s : State) (w : Vector Half 8) :
    (s.estimate w).offset.toInt = Int.tdiv (weightedSum w s.liveNorm) 8 := by
  have hsum := abs_weightedSum_lt w s.abs_liveNorm_le
  obtain ⟨hlo, hhi⟩ := abs_lt.mp ((abs_tdiv_le_abs _ 8).trans_lt hsum)
  rw [State.estimate_offset, truncDiv]
  exact BitVec.toInt_ofInt_eq_self (by decide) (by omega) (by omega)

theorem State.estimate_offset_of_const {s : State} {k : Int} (h : ∀ i, s.liveNorm i = k) :
    (s.estimate Config.weights).offset = 0#64 := by
  rw [State.estimate_offset, weightedSum_weights_of_const h]
  rfl

theorem State.anyDegenerate_iff (s : State) :
    s.anyDegenerate = true ↔ ∃ i : Chan, Claims.isDegenerate s.cal[i] := by
  simp [State.anyDegenerate, Vector.any_iff_exists, Cal.degenerate_iff, Fin.exists_iff]

theorem State.estimate_status_of_degenerate {s : State} (h : ∃ i : Chan, Claims.isDegenerate s.cal[i])
    (w : Vector Half 8) : (s.estimate w).status = s.status ||| 0b1000#4 := by
  rw [State.estimate_status, if_pos (s.anyDegenerate_iff.mpr h)]
  rfl

theorem State.estimate_status_of_not_degenerate {s : State} (h : ∀ i : Chan, ¬ Claims.isDegenerate s.cal[i])
    (w : Vector Half 8) : (s.estimate w).status = s.status := by
  rw [State.estimate_status, if_neg (mt s.anyDegenerate_iff.mp (not_exists.mpr h))]

theorem State.onlyChanges_estimate (s : State) (w : Vector Half 8) :
    OnlyChanges ([.offsetLo, .offsetHi, .status] ++ (List.finRange 8).map .norm) s (s.estimate w) := by
  refine ⟨fun r hr => ?_, by simp⟩
  cases r with
  | offsetLo | offsetHi | status | norm i => simp at hr
  | _ => rfl

/-! ## EST -/

/-- Settles O27: EST is `estimate` with the weights of the machine. -/
theorem estResult : Obligations.EstResult := by
  refine ⟨rfl, fun s => ⟨s.estimate Config.weights, exec_effect .est s, s.estimate_norm_toInt _, ?_, ?_, fun hall => ?_,
    fun hsome => State.estimate_status_of_degenerate hsome _,
    fun hnone => State.estimate_status_of_not_degenerate hnone _, s.onlyChanges_estimate _⟩⟩
  · simpa only [weightedSum_eq_sum, State.liveNorm_eq] using s.estimate_offset_toInt Config.weights
  · simpa only [weightedSum_eq_sum, State.liveNorm_eq] using
      abs_weightedSum_lt Config.weights s.abs_liveNorm_le
  · exact State.estimate_offset_of_const fun i => State.liveNorm_of_degenerate (hall i)

/-- Settles O29: equal values are weighted by a sum of weights that is 0. -/
theorem equalChannelsGiveZeroOffset : Obligations.EqualChannelsGiveZeroOffset := fun s _ hn =>
  ⟨_, exec_effect .est s, State.estimate_offset_of_const fun i => (s.liveNorm_eq i).trans (hn i)⟩

end Sys2Proof.Machine

/-! PROOFS. Multiplication and addition of a nonnegative value, and the conversion of an s64
(00_scope.md R10). -/

namespace Sys2Proof.Machine.Binary32

/-- The product of finite values is the rounded exact product, which may be infinite. -/
theorem fmul_of_isFinite {a b : F32} (ha : isFinite a = true) (hb : isFinite b = true) :
    fmul a b = pack (sign a != sign b) (roundMag (units (mag a) * units (mag b)) (2 ^ 149)) := by
  simp [fmul, isNaN_of_isFinite ha, isNaN_of_isFinite hb, isInf_of_isFinite ha, isInf_of_isFinite hb]

theorem sign_fmul {a b : F32} (ha : isFinite a = true) (hb : isFinite b = true) :
    sign (fmul a b) = (sign a != sign b) := by
  rw [fmul_of_isFinite ha hb, sign_pack _ (roundMag_lt _ _)]

theorem isNaN_fmul {a b : F32} (ha : isFinite a = true) (hb : isFinite b = true) :
    isNaN (fmul a b) = false := by
  rw [fmul_of_isFinite ha hb, isNaN, mag_pack _ (roundMag_lt _ _)]
  exact decide_eq_false (Nat.not_lt.mpr (roundMag_le _ _))

theorem orderKey_of_sign_eq_false {x : F32} (h : sign x = false) : orderKey x = mag x := by
  simp [orderKey, h]

/-- Rounding is monotone, so adding a nonnegative value, +∞ included, never gives less. -/
theorem orderKey_le_fadd_of_nonneg {a b : F32} (ha : isFinite a = true) (hb : isNaN b = false)
    (hpos : sign b = false) : orderKey a ≤ orderKey (fadd a b) ∧ isNaN (fadd a b) = false := by
  have hma : mag a < infMag := isFinite_iff.mp ha
  rcases finite_or_inf_or_nan b with ⟨hfin, -, -⟩ | ⟨-, hinf, -⟩ | ⟨-, -, hnan⟩
  · obtain ⟨hsum, hnn⟩ := orderKey_fadd ha hfin
    have hb0 : 0 ≤ scaled b := by simp [scaled, hpos]
    have hmono : roundKey (scaled a) 1 ≤ roundKey (scaled a + scaled b) 1 :=
      roundKey_mono Nat.one_pos Nat.one_pos (by omega)
    exact ⟨by rwa [hsum, ← roundKey_scaled hma.le], hnn⟩
  · have hkey : orderKey b = infMag := by rw [orderKey_of_sign_eq_false hpos, isInf_iff.mp hinf]
    rw [fadd_inf ha hinf, hkey]
    exact ⟨(isFinite_iff_key.mp ha).2.le, hb⟩
  · rw [hb] at hnan
    cases hnan

/-- 2^63, the largest magnitude of an s64, is the pattern 0x5F000000. -/
theorem isFinite_i2f_toInt (n : Double) : isFinite (i2f n.toInt) = true := by
  have hn : n.toInt.natAbs ≤ 2 ^ 63 := by
    have hlo := n.le_toInt
    have hhi := n.toInt_lt
    omega
  have htop : roundMag (2 ^ 63 * 2 ^ 149) 1 = 0x5F000000 := by
    simpa [units] using roundMag_units (m := 0x5F000000) (by decide) Nat.one_pos
  have hle : roundMag (n.toInt.natAbs * 2 ^ 149) 1 ≤ 0x5F000000 :=
    htop ▸ roundMag_mono Nat.one_pos Nat.one_pos (Nat.mul_le_mul_right _ (Nat.mul_le_mul_right _ hn))
  rw [isFinite_iff, i2f, mag_pack _ (roundMag_lt _ _)]
  exact hle.trans_lt (by decide)

end Sys2Proof.Machine.Binary32

/-! PROOFS. The steering controller and the time delta (41_pid.md R120 to R128, R131). -/

namespace Sys2Proof.Machine

open Binary32

/-! ## `clamp_dt` (41_pid.md R121) -/

theorem clampDt_of_fgt {x : F32} (h : fgt x Config.dtFloor = true) : clampDt x = x := if_pos h

theorem clampDt_of_not_fgt {x : F32} (h : fgt x Config.dtFloor = false) : clampDt x = Config.dtFloor := by
  simp [clampDt, h]

/-- What lies above the floor: no NaN, no sign, and a magnitude above the floor's. -/
theorem fgt_dtFloor_iff {x : F32} :
    fgt x Config.dtFloor = true ↔ isNaN x = false ∧ sign x = false ∧ 0x358637BD < mag x := by
  have hfloor : isNaN Config.dtFloor = false ∧ orderKey Config.dtFloor = 0x358637BD := by decide
  rw [fgt_iff, hfloor.1, hfloor.2, orderKey]
  cases sign x <;> simp

/-- Either the delta is above the floor and stays, or it is the floor. -/
theorem clampDt_positive (x : F32) :
    isNaN (clampDt x) = false ∧ sign (clampDt x) = false ∧ 0x358637BD ≤ mag (clampDt x) := by
  cases h : fgt x Config.dtFloor with
  | true =>
    obtain ⟨hnan, hsign, hmag⟩ := fgt_dtFloor_iff.mp h
    rw [clampDt_of_fgt h]
    exact ⟨hnan, hsign, hmag.le⟩
  | false =>
    rw [clampDt_of_not_fgt h]
    decide

/-- Settles O33: `clamp_dt` by what lies above the floor. -/
theorem clampedDeltaIsPositive : Obligations.ClampedDeltaIsPositive := by
  refine fun x => ⟨clampDt_of_fgt, clampDt_of_not_fgt, fun hlow => ?_, by decide, clampDt_positive x⟩
  apply clampDt_of_not_fgt
  rw [← Bool.not_eq_true, fgt_dtFloor_iff]
  rintro ⟨hnan, hsign, hmag⟩
  rcases hlow with h | h | h
  · simp [hnan] at h
  · simp [hsign] at h
  · omega

/-! ## The controller step (41_pid.md R120 to R127) -/

theorem State.onlyChanges_pidStep (s : State) (e dtr : F32) :
    OnlyChanges [.integral, .prevError, .correction, .status] s (s.pidStep e dtr) := by
  refine ⟨fun r hr => ?_, by simp⟩
  cases r with
  | integral | prevError | correction | status => simp at hr
  | _ => rfl

/-- The flag, said the way R125 says it: STATUS stays when all three results are finite. -/
theorem State.pidStep_status_of_results (s : State) (e dtr : F32) :
    (s.pidStep e dtr).status =
      if isFinite (s.pidStep e dtr).integral && isFinite (derivative s.prevError e (clampDt dtr)) &&
          isFinite (s.pidStep e dtr).correction
      then s.status else s.status ||| 0b0100#4 := by
  rw [State.pidStep_status, ← Bool.not_and, ← Bool.not_and]
  cases isFinite (s.pidStep e dtr).integral && isFinite (derivative s.prevError e (clampDt dtr)) &&
    isFinite (s.pidStep e dtr).correction <;> rfl

/-- `pidStep` is the controller step as the rules write it out. -/
theorem State.controllerStep_pidStep (s : State) (e dtr : F32) :
    Claims.ControllerStep s e dtr (s.pidStep e dtr) :=
  ⟨s.pidStep_integral e dtr, s.pidStep_prevError e dtr, s.pidStep_correction e dtr,
    s.pidStep_status_of_results e dtr, s.onlyChanges_pidStep e dtr⟩

/-- Settles O31: PID steps the controller on i2f(OFFSET). -/
theorem pidResult : Obligations.PidResult :=
  ⟨rfl, fun s => ⟨isFinite_i2f_toInt s.offset, _, exec_effect .pid s, s.controllerStep_pidStep _ _⟩⟩

/-- Settles O32: PIDI steps the controller on ERR_IN. -/
theorem pidiResult : Obligations.PidiResult :=
  ⟨rfl, fun s => ⟨_, exec_effect .pidi s, s.controllerStep_pidStep _ _⟩⟩

/-- What each command that steps the controller leaves in its three registers; LOOP's EST and MAP leave
them alone. -/
theorem results_of_stepsController {s t : State} {i : Instr} {e : F32}
    (hstep : Claims.StepsController s i e) (ht : exec i s = .next t) :
    t.integral = nextIntegral s.integral e (clampDt s.dtIn) ∧ t.prevError = e ∧
    t.correction = correctionOf s.kp s.ki s.kd e t.integral (derivative s.prevError e (clampDt s.dtIn)) := by
  obtain rfl := exec_next ht
  rcases hstep with ⟨rfl, rfl⟩ | ⟨rfl, rfl⟩ | ⟨rfl, a, ha, rfl⟩
  · simp [effect]
  · simp [effect]
  · obtain rfl := exec_next ha
    simp [effect, iteration_eq]

/-! ## The integral under a positive error (41_pid.md R122, R131) -/

/-- A sum that is no NaN is cut at MAX_INTEGRAL. -/
theorem orderKey_nextIntegral {integral e dt : F32} (h : isNaN (fadd integral (fmul e dt)) = false) :
    orderKey (nextIntegral integral e dt) =
      min (orderKey (fadd integral (fmul e dt))) (orderKey Config.maxIntegral) := by
  have hmax : isNaN Config.maxIntegral = false := by decide
  have hgt := fgt_iff (a := fadd integral (fmul e dt)) (b := Config.maxIntegral)
  simp only [nextIntegral]
  split_ifs with hc
  · exact (min_eq_right (hgt.mp hc).2.2.le).symm
  · exact (min_eq_left (not_lt.mp fun hlt => hc (hgt.mpr ⟨h, hmax, hlt⟩))).symm

/-- Settles O36: e·dt has no sign, so the rounded sum is not below INTEGRAL, and the ceiling cuts it, +∞
included. -/
theorem integralNeverDecreasesUnderPositiveError :
    Obligations.IntegralNeverDecreasesUnderPositiveError := by
  intro s t i e hstep ht he hpos _ hdt hint hle
  obtain ⟨hnext, -, -⟩ := results_of_stepsController hstep ht
  have hsign : sign (fmul e (clampDt s.dtIn)) = false := by
    rw [sign_fmul he hdt, hpos, (clampDt_positive s.dtIn).2.1]
    rfl
  obtain ⟨hsum, hnan⟩ := orderKey_le_fadd_of_nonneg hint (isNaN_fmul he hdt) hsign
  have hkey := hnext ▸ orderKey_nextIntegral hnan
  have hmax : orderKey Config.maxIntegral < infMag := by decide
  rw [← orderKey_le_iff] at hle
  have hlow : orderKey s.integral ≤ orderKey t.integral := hkey ▸ le_min hsum hle
  have hhigh : orderKey t.integral ≤ orderKey Config.maxIntegral := hkey ▸ min_le_right _ _
  exact ⟨isFinite_iff_key.mpr ⟨(isFinite_iff_key.mp hint).1.trans_le hlow, hhigh.trans_lt hmax⟩,
    orderKey_le_iff.mp hlow, orderKey_le_iff.mp hhigh⟩

/-! ## TDELTA (41_pid.md R128) -/

theorem toNat_sub_eq_emod (a b : Word) : ((a - b).toNat : Int) = ((a.toNat : Int) - b.toNat) % 2 ^ 32 := by
  rw [BitVec.toNat_sub]
  omega

/-- Settles O38: TDELTA subtracts the old TICK_PREV and then replaces it. -/
theorem tdeltaResult : Obligations.TdeltaResult := by
  refine ⟨rfl, fun s => ⟨_, exec_effect .tdelta s, toNat_sub_eq_emod _ _, rfl, fun r hr => ?_, by simp [effect]⟩⟩
  cases r with
  | elapsed | tickPrev => simp at hr
  | _ => rfl

end Sys2Proof.Machine

/-! PROOFS. The actuation mapper: the clamp, the lines, and what MAP, MAPI and LOOP leave in the duty and line
registers (42_actuation.md R140 to R148). -/

namespace Sys2Proof.Machine

open Binary32

/-! ## The lines of a duty (42_actuation.md R147) -/

theorem lines_eq_append (d : Int) : lines d = BitVec.ofInt 16 (max (-d) 0) ++ BitVec.ofInt 16 (max d 0) := by
  have hneg : max (-d) 0 = if d < 0 then -d else 0 := by split_ifs <;> omega
  have hpos : max d 0 = if 0 < d then d else 0 := by split_ifs <;> omega
  rw [hneg, hpos]
  rfl

theorem lineA_lines (d : Int) : (lines d).extractLsb' 0 16 = BitVec.ofInt 16 (max d 0) := by
  rw [lines_eq_append]
  exact BitVec.extractLsb'_append_eq_right

theorem lineB_lines (d : Int) : (lines d).extractLsb' 16 16 = BitVec.ofInt 16 (max (-d) 0) := by
  rw [lines_eq_append]
  exact BitVec.extractLsb'_append_eq_left

theorem lineB_lines_of_nonneg {d : Int} (h : 0 ≤ d) : (lines d).extractLsb' 16 16 = 0#16 := by
  rw [lineB_lines, max_eq_right (by omega)]
  rfl

/-- A magnitude fits a line. -/
theorem toNat_ofInt_line {x : Int} (hlo : 0 ≤ x) (hhi : x ≤ 32767) : ((BitVec.ofInt 16 x).toNat : Int) = x := by
  rw [BitVec.toNat_ofInt]
  omega

/-- Settles O47: each line holds a magnitude, which a duty's range keeps below 2^15. -/
theorem linesShowSignAndMagnitude : Obligations.LinesShowSignAndMagnitude := by
  intro d hlo hhi
  rw [lineA_lines, lineB_lines]
  exact ⟨toNat_ofInt_line (le_max_right _ _) (by omega), toNat_ofInt_line (le_max_right _ _) (by omega)⟩

/-! ## `clamp_f` (42_actuation.md R141) -/

/-- Whatever is clamped, a NaN and the infinities included, lands between the bounds. -/
theorem orderKey_clampF_mem {lo hi : F32} (hlo : isNaN lo = false) (hhi : isNaN hi = false)
    (hle : orderKey lo ≤ orderKey hi) (v : F32) :
    orderKey lo ≤ orderKey (clampF v lo hi) ∧ orderKey (clampF v lo hi) ≤ orderKey hi := by
  unfold clampF
  split_ifs with hnan hlt hgt
  · exact ⟨le_rfl, hle⟩
  · exact ⟨le_rfl, hle⟩
  · exact ⟨hle, le_rfl⟩
  · have hv : isNaN v = false := by simpa using hnan
    exact ⟨not_lt.mp fun h => hlt (flt_iff.mpr ⟨hv, hlo, h⟩), not_lt.mp fun h => hgt (fgt_iff.mpr ⟨hv, hhi, h⟩)⟩

/-! ## The duties (42_actuation.md R142, R145) -/

/-- An s16 is exact in binary32. -/
theorem natAbs_toInt_half_lt (x : Half) : x.toInt.natAbs < 2 ^ 24 := by
  have hlo := x.le_toInt
  have hhi := x.toInt_lt
  omega

/-- Clamping between two s16 values and truncating gives an integer between them: the conversions are exact
and truncation is monotone. -/
theorem f2iTrunc_clampF_i2f_mem {n h : Half} (hle : n.toInt ≤ h.toInt) (v : F32) :
    n.toInt ≤ f2iTrunc (clampF v (i2f n.toInt) (i2f h.toInt)) ∧
      f2iTrunc (clampF v (i2f n.toInt) (i2f h.toInt)) ≤ h.toInt := by
  have hnot (x : Half) : isNaN (i2f x.toInt) = false :=
    isNaN_of_isFinite (isFinite_i2f (natAbs_toInt_half_lt x))
  have hkey : orderKey (i2f n.toInt) ≤ orderKey (i2f h.toInt) := by
    rw [orderKey_i2f, orderKey_i2f]
    exact roundKey_mono Nat.one_pos Nat.one_pos (by omega)
  obtain ⟨hlow, hhigh⟩ := orderKey_clampF_mem (hnot n) (hnot h) hkey v
  have hlow' := f2iTrunc_mono (orderKey_le_iff.mp hlow)
  have hhigh' := f2iTrunc_mono (orderKey_le_iff.mp hhigh)
  rw [f2iTrunc_i2f (natAbs_toInt_half_lt _)] at hlow' hhigh'
  exact ⟨hlow', hhigh'⟩

theorem State.leftDuty_mem {s : State} (h : Claims.pairIsLegal s) (c : F32) :
    s.neutralSpeed.toInt ≤ s.leftDuty c ∧ s.leftDuty c ≤ s.dutyMax.toInt :=
  f2iTrunc_clampF_i2f_mem h.2 _

theorem State.rightDuty_mem {s : State} (h : Claims.pairIsLegal s) (c : F32) :
    s.neutralSpeed.toInt ≤ s.rightDuty c ∧ s.rightDuty c ≤ s.dutyMax.toInt :=
  f2iTrunc_clampF_i2f_mem h.2 _

/-! ## The duty and line registers after a map with a legal pair -/

/-- A duty register holds a value of [lo, hi] and its line register shows it (42_actuation.md R145, R147), as
`DutyShown` says it of [-32767, 32767]. -/
def DutyWithin (lo hi : Int) (duty pwm : Word) : Prop :=
  lo ≤ duty.toInt ∧ duty.toInt ≤ hi ∧ pwm = lines duty.toInt

/-- An s16 range of duties does not wrap in the s32 register. -/
theorem dutyWithin_ofInt {n h : Half} {d : Int} (hd : n.toInt ≤ d ∧ d ≤ h.toInt) :
    DutyWithin n.toInt h.toInt (BitVec.ofInt 32 d) (lines d) := by
  have hn := n.le_toInt
  have hh := h.toInt_lt
  have hreg : (BitVec.ofInt 32 d).toInt = d := BitVec.toInt_ofInt_eq_self (by decide) (by omega) (by omega)
  unfold DutyWithin
  rw [hreg]
  exact ⟨hd.1, hd.2, rfl⟩

theorem State.dutyWithin_mapDuty {s : State} (h : Claims.pairIsLegal s) (c : F32) :
    DutyWithin s.neutralSpeed.toInt s.dutyMax.toInt (s.mapDuty c).dutyL (s.mapDuty c).pwmL ∧
    DutyWithin s.neutralSpeed.toInt s.dutyMax.toInt (s.mapDuty c).dutyR (s.mapDuty c).pwmR := by
  rw [State.mapDuty_legal s c (s.legalPair_iff.mpr h)]
  exact ⟨dutyWithin_ofInt (State.leftDuty_mem h c), dutyWithin_ofInt (State.rightDuty_mem h c)⟩

/-- MAP, MAPI and LOOP end in a map under the pair they began with: LOOP's EST and PID leave it alone. -/
theorem exists_mapDuty_of_exec {s t : State} {i : Instr} (hi : i = .map ∨ i = .mapi ∨ i = .loop)
    (ht : exec i s = .next t) :
    ∃ (u : State) (c : F32), t = u.mapDuty c ∧ u.neutralSpeed = s.neutralSpeed ∧ u.dutyMax = s.dutyMax := by
  obtain rfl := exec_next ht
  rcases hi with rfl | rfl | rfl
  · exact ⟨s, s.correction, rfl, rfl, rfl⟩
  · exact ⟨s, s.corrIn, rfl, rfl, rfl⟩
  · exact ⟨_, _, iteration_eq _ s, by simp, by simp⟩

theorem dutyWithin_of_exec {s t : State} {i : Instr} (hi : i = .map ∨ i = .mapi ∨ i = .loop)
    (hlegal : Claims.pairIsLegal s) (ht : exec i s = .next t) :
    DutyWithin s.neutralSpeed.toInt s.dutyMax.toInt t.dutyL t.pwmL ∧
    DutyWithin s.neutralSpeed.toInt s.dutyMax.toInt t.dutyR t.pwmR := by
  obtain ⟨u, c, rfl, hneutral, hmax⟩ := exists_mapDuty_of_exec hi ht
  unfold Claims.pairIsLegal at hlegal
  rw [← hneutral, ← hmax] at hlegal ⊢
  exact State.dutyWithin_mapDuty hlegal c

/-- Settles O45: both duties lie in the clamp's range. -/
theorem dutyStaysInBounds : Obligations.DutyStaysInBounds := by
  intro s t i hi hlegal ht
  obtain ⟨⟨hLlo, hLhi, -⟩, hRlo, hRhi, -⟩ := dutyWithin_of_exec hi hlegal ht
  refine ⟨fun d hd => ?_, hlegal.1, Int.le_of_lt_add_one s.dutyMax.toInt_lt⟩
  rcases List.mem_pair.mp hd with rfl | rfl
  · exact ⟨hLlo, hLhi⟩
  · exact ⟨hRlo, hRhi⟩

/-- Settles O48: no duty is below a nonnegative NEUTRAL_SPEED, and line B of a nonnegative duty is 0. -/
theorem nonnegativeNeutralNeverReverses : Obligations.NonnegativeNeutralNeverReverses := by
  intro s t i hi hlegal hneutral ht
  obtain ⟨⟨hL, -, hpwmL⟩, hR, -, hpwmR⟩ := dutyWithin_of_exec hi hlegal ht
  have hL0 := hneutral.trans hL
  have hR0 := hneutral.trans hR
  rw [hpwmL, hpwmR]
  exact ⟨hL0, hR0, lineB_lines_of_nonneg hL0, lineB_lines_of_nonneg hR0⟩

/-! ## MAP and MAPI (42_actuation.md R143, R144) -/

theorem State.onlyChanges_mapDuty (s : State) (c : F32) :
    OnlyChanges [.dutyL, .dutyR, .pwmL, .pwmR, .status] s (s.mapDuty c) := by
  refine ⟨fun r hr => ?_, by simp⟩
  cases r with
  | dutyL | dutyR | pwmL | pwmR | status => simp at hr
  | sample i => simp [State.readReg, State.sampleRead, State.sampleValues, State.heldSample]
  | _ => simp [State.readReg]

theorem State.leftDuty_eq_truncated (s : State) (c : F32) :
    s.leftDuty c = Claims.truncated (Claims.clamped (fadd (i2f s.neutralSpeed.toInt) c)
      (i2f s.neutralSpeed.toInt) (i2f s.dutyMax.toInt)) :=
  f2iTrunc_eq _

theorem State.rightDuty_eq_truncated (s : State) (c : F32) :
    s.rightDuty c = Claims.truncated (Claims.clamped (fsub (i2f s.neutralSpeed.toInt) c)
      (i2f s.neutralSpeed.toInt) (i2f s.dutyMax.toInt)) :=
  f2iTrunc_eq _

/-- `mapDuty` is the map as the rules write it out. -/
theorem State.mapStep_mapDuty (s : State) (c : F32) : Claims.MapStep s c (s.mapDuty c) := by
  refine ⟨fun hlegal => ?_, fun hillegal => ?_⟩
  · have hframe := s.onlyChanges_mapDuty c
    rw [State.mapDuty_legal s c (s.legalPair_iff.mpr hlegal), State.leftDuty_eq_truncated,
      State.rightDuty_eq_truncated] at hframe ⊢
    exact ⟨rfl, rfl, rfl, rfl, rfl, hframe⟩
  · exact State.mapDuty_illegal s c (Bool.eq_false_iff.mpr (mt s.legalPair_iff.mp hillegal))

/-- Settles O43: MAP maps CORRECTION. -/
theorem mapResult : Obligations.MapResult :=
  ⟨rfl, fun s => ⟨_, exec_effect .map s, s.mapStep_mapDuty s.correction⟩⟩

/-- Settles O44: MAPI maps CORR_IN. -/
theorem mapiResult : Obligations.MapiResult :=
  ⟨rfl, fun s => ⟨_, exec_effect .mapi s, s.mapStep_mapDuty s.corrIn⟩⟩

end Sys2Proof.Machine

/-! PROOFS. NOP and the other words with OP = 0 (43_sequencing.md R160). -/

namespace Sys2Proof

/-- OP = 0 belongs to NOP alone (30_encoding.md R81). -/
theorem Instr.eq_nop_of_fields_op {i : Instr} (h : i.fields.op = 0) : i = .nop := by
  cases i with
  | nop => rfl
  | _ => exact absurd h (by simp [Instr.fields])

/-- The only word with OP = 0 that an instruction encodes to is NOP's. -/
theorem encode_ne_of_op_eq_zero {w : Word} (hop : w.extractLsb' 0 4 = 0#4) (hw : w ≠ encode .nop)
    (i : Instr) : encode i ≠ w := by
  rintro rfl
  have hfields : i.fields.op = 0 := C32.ofWord_encode i ▸ hop
  exact hw (congrArg encode (Instr.eq_nop_of_fields_op hfields))

end Sys2Proof

namespace Sys2Proof.Machine

/-- Settles O49: NOP is the identity after its CMD write, and no instruction has another word with OP = 0. -/
theorem nopResult : Obligations.NopResult := by
  refine ⟨rfl, fun s => ⟨exec_effect .nop s, ?_, fun w hop hw => ?_⟩⟩
  · calc memWrite 0x00 0x00000000#32 s
        = execute (encode .nop) { s with cmd := 0x00000000#32 } := memWrite_cmd 0x00000000#32 s
      _ = exec .nop { s with cmd := 0x00000000#32 } := execute_encode .nop _
      _ = .next { s with cmd := 0x00000000#32 } := exec_effect .nop _
  · exact execute_of_not_encode (encode_ne_of_op_eq_zero hop hw) s

end Sys2Proof.Machine

/-! PROOFS. The CMD write as a step, and what an illegal word leaves (60_exceptions.md R172). -/

namespace Sys2Proof.Machine

/-! ## A CMD write as one step (10_state.md R24, 20_memory.md R63) -/

theorem thenNext_thenNext (o : Host.Outcome State Fault Refusal) (f g : State → State) :
    thenNext (thenNext o f) g = thenNext o (fun t => g (f t)) := by
  cases o <;> rfl

theorem hostAccess_commandWrite (v : Word) (s : State) :
    hostAccess (commandWrite v) s = thenNext (execute v { s with cmd := v }) (fun t => t.answer .done) := by
  have hacc : (commandWrite v).accepted = true := accepted_at_offset (.write v) .cmd
  rw [hostAccess, if_pos hacc, ← memWrite_cmd]
  rfl

/-- Outside reset a CMD write stores its word and executes it; then the bus answers and the window closes. -/
theorem step_commandWrite {s : State} {v : Word} {w : Window} {rest : List Input} (hreset : s.inReset = false)
    (hpending : s.pending = .access (commandWrite v) w :: rest) :
    step s = thenNext (execute v { s with pending := rest, window := w, cmd := v })
      (fun t => (t.answer .done).closeWindow) := by
  rw [step_access hpending hreset, hostAccess_commandWrite, thenNext_thenNext]
  rfl

/-! ## Register reads after the updates that end a CMD write -/

theorem State.readReg_raise_of_ne_status {q : Reg} (hq : q ≠ .status) (s : State) (f : Flag) :
    (s.raise f).readReg q = s.readReg q := by
  cases q with
  | status => exact absurd rfl hq
  | _ => rfl

@[simp] theorem State.readReg_answer (s : State) (r : Response) (q : Reg) :
    (s.answer r).readReg q = s.readReg q := by
  cases q <;> rfl

/-- The end of the window shows in SAMPLE alone. -/
theorem State.readReg_closeWindow_of_ne_sample {q : Reg} (hq : ∀ i, q ≠ .sample i) (s : State) :
    s.closeWindow.readReg q = s.readReg q := by
  cases q with
  | sample i => exact absurd rfl (hq i)
  | _ => rfl

theorem State.flag_raise_self (s : State) (f : Flag) : (s.raise f).flag f = true := by
  cases f <;> simp [State.flag, Flag.mask, Flag.bit]

/-! ## An illegal word (60_exceptions.md R172) -/

/-- The state after a CMD write of an illegal word `v` with window `w`. -/
def State.afterIllegalWord (s : State) (v : Word) (w : Window) (rest : List Input) : State :=
  ((({ s with pending := rest, window := w, cmd := v } : State).raise .illcmd).answer .done).closeWindow

theorem step_illegalWord {s : State} {v : Word} {w : Window} {rest : List Input} (hreset : s.inReset = false)
    (hpending : s.pending = .access (commandWrite v) w :: rest) (hillegal : ∀ i, encode i ≠ v) :
    step s = .next (s.afterIllegalWord v w rest) := by
  rw [step_commandWrite hreset hpending, execute_of_not_encode hillegal]
  rfl

theorem State.readReg_afterIllegalWord {q : Reg} (hcmd : q ≠ .cmd) (hstatus : q ≠ .status)
    (hsample : ∀ i, q ≠ .sample i) (s : State) (v : Word) (w : Window) (rest : List Input) :
    (s.afterIllegalWord v w rest).readReg q = s.readReg q := by
  rw [State.afterIllegalWord, State.readReg_closeWindow_of_ne_sample hsample, State.readReg_answer,
    State.readReg_raise_of_ne_status hstatus]
  cases q with
  | cmd => exact absurd rfl hcmd
  | sample i => exact absurd rfl (hsample i)
  | _ => rfl

/-- Settles O12: the illegal word's step only raises ILLCMD, and the state it leaves is out of reset, so the
next CMD write is executed. -/
theorem illegalWordSetsOnlyIllcmd : Obligations.IllegalWordSetsOnlyIllcmd := by
  intro s v w rest hreset hpending hillegal
  refine ⟨s.afterIllegalWord v w rest, step_illegalWord hreset hpending hillegal, rfl,
    State.flag_raise_self _ .illcmd, rfl, fun q hcmd hstatus hsample => ?_, ?_, ?_⟩
  · exact State.readReg_afterIllegalWord hcmd hstatus hsample s v w rest
  · intro hquiet
    simp [State.afterIllegalWord, hquiet]
  · rintro i w' rest' hrest
    have hnext : (s.afterIllegalWord v w rest).inReset = false := hreset
    rw [step_commandWrite hnext hrest, execute_encode]

end Sys2Proof.Machine

/-! PROOFS. The bytes of a command word, the assembler, and the register map's offsets (30_encoding.md R88,
R89; 10_state.md R23). -/

namespace Sys2Proof

/-! ## Bytes and written words (30_encoding.md R81, R88) -/

/-- Decoding takes the four lanes of a word and leaves the bytes after them. -/
theorem decodeBytes_bytesOfWord {w : Word} {i : Instr} (h : decode w = .ok i) (rest : List Byte) :
    decodeBytes (bytesOfWord w ++ rest) = .ok (i, rest) := by
  simp [bytesOfWord, decodeBytes, wordOfBytes_bytes, h]

/-- Settles O1: the decoder inverts the encoder on words, and a word is its four lanes. -/
theorem decodeAndEncodeAgree : Obligations.DecodeAndEncodeAgree :=
  ⟨fun _ _ => decode_eq_ok_iff, fun i => decodeBytes_bytesOfWord (decode_encode i)⟩

/-- Settles O4: each word is evaluated. -/
theorem writtenWordsDecode : Obligations.WrittenWordsDecode := by
  unfold Obligations.WrittenWordsDecode
  decide

end Sys2Proof

namespace Sys2Proof.Machine

/-! ## The assembler (30_encoding.md R89) -/

/-- NORM and NORMI, in either case, assemble with a channel 0..7 and with nothing else. -/
theorem assemble_of_takesChannel {m : String} {mk : Chan → Instr}
    (h : (m, mk) ∈ [("NORM", Instr.norm), ("norm", .norm), ("NORMI", .normi), ("normi", .normi)]) (c : Option Nat) :
    assemble ⟨m, c⟩ = c.bind fun ch => if h : ch < 8 then some (encode (mk ⟨ch, h⟩)) else none := by
  simp only [List.mem_cons, List.not_mem_nil, or_false, Prod.mk.injEq] at h
  obtain ⟨rfl, rfl⟩ | ⟨rfl, rfl⟩ | ⟨rfl, rfl⟩ | ⟨rfl, rfl⟩ := h <;> cases c <;> rfl

/-- Settles O5: each spelling finds its row, and the row says whether a channel follows. -/
theorem assemblerGivesTheEncoding : Obligations.AssemblerGivesTheEncoding := by
  refine ⟨fun m hm ch => ?_, fun m hm ch => ?_, fun m hm => ?_, fun p hp => ?_⟩
  · rcases List.mem_pair.mp hm with rfl | rfl <;> exact assemble_of_takesChannel (by simp) (some ch)
  · rcases List.mem_pair.mp hm with rfl | rfl <;> exact assemble_of_takesChannel (by simp) (some ch)
  · fin_cases hm <;> rfl
  · fin_cases hp <;> exact ⟨rfl, fun _ => rfl⟩

/-! ## The register map (10_state.md R23) -/

/-- The register of word `k` of the window stands at byte offset 4 * k. -/
theorem Reg.offset_ofIndex {k : Nat} (h : k < 64) : (Reg.ofIndex k).offset = 4 * k := by
  decide +revert

theorem Reg.ofOffset_eq_some_iff {off : Nat} {r : Reg} : Reg.ofOffset off = some r ↔ r.offset = off := by
  refine ⟨fun h => ?_, fun h => h ▸ r.ofOffset_offset⟩
  rw [Reg.ofOffset] at h
  split_ifs at h with hacc
  cases h
  rw [Reg.offset_ofIndex (by omega)]
  omega

/-- Settles O6: the offsets and access codes are the table's, and looking an offset up inverts `Reg.offset`. -/
theorem registerMapIsOneToOne : Obligations.RegisterMapIsOneToOne := by
  refine ⟨fun _ _ => Reg.ofOffset_eq_some_iff, by decide, fun i => ?_⟩
  exact ⟨⟨rfl, rfl⟩, ⟨rfl, rfl⟩, ⟨rfl, rfl⟩, ⟨rfl, rfl⟩, ⟨rfl, rfl⟩⟩

end Sys2Proof.Machine

/-! PROOFS. Where a register can change: the registers each command writes, what a step can do to the registers,
and with it the writers of every register (10_state.md R20, R31 to R45). -/

namespace Sys2Proof.Machine

/-! ## The registers a command writes (10_state.md R31, R32, R38 to R45) -/

/-- The registers a command can write, STATUS for its flags included. -/
def writtenRegs : Instr → List Reg
  | .nop => []
  | .norm _ | .normi _ => [.normOut, .status]
  | .est => [.offsetLo, .offsetHi, .status] ++ (List.finRange 8).map .norm
  | .pid | .pidi => [.integral, .prevError, .correction, .status]
  | .map | .mapi => [.dutyL, .dutyR, .pwmL, .pwmR, .status]
  | .tdelta => [.elapsed, .tickPrev]
  | .loop => [.offsetLo, .offsetHi, .integral, .prevError, .correction, .dutyL, .dutyR, .pwmL, .pwmR, .status] ++
      (List.finRange 8).map .norm

theorem OnlyChanges.mono {l l' : List Reg} {s t : State} (h : OnlyChanges l s t) (hsub : l ⊆ l') :
    OnlyChanges l' s t :=
  ⟨fun r hr => h.1 r fun hmem => hr (hsub hmem), h.2⟩

theorem OnlyChanges.trans {l : List Reg} {s t u : State} (hst : OnlyChanges l s t) (htu : OnlyChanges l t u) :
    OnlyChanges l s u := by
  obtain ⟨hreg, hsample, hwindow, hreset, hpending, hresponse, hfree⟩ := hst
  obtain ⟨hreg', hsample', hwindow', hreset', hpending', hresponse', hfree'⟩ := htu
  exact ⟨fun r hr => (hreg' r hr).trans (hreg r hr), hsample'.trans hsample, hwindow'.trans hwindow,
    hreset'.trans hreset, hpending'.trans hpending, hresponse'.trans hresponse, hfree'.trans hfree⟩

/-- LOOP's frame: the frames of its three parts together. -/
theorem State.onlyChanges_iteration (w : Vector Half 8) (s : State) :
    OnlyChanges (writtenRegs .loop) s (s.iteration w) := by
  have hest := (s.onlyChanges_estimate w).mono (l' := writtenRegs .loop) (by decide)
  have hpid (u : State) (e dtr : F32) : OnlyChanges (writtenRegs .loop) u (u.pidStep e dtr) :=
    (u.onlyChanges_pidStep e dtr).mono (by decide)
  have hmap (u : State) (c : F32) : OnlyChanges (writtenRegs .loop) u (u.mapDuty c) :=
    (u.onlyChanges_mapDuty c).mono (by decide)
  exact (hest.trans (hpid _ _ _)).trans (hmap _ _)

/-- A command changes nothing but the registers it writes. -/
theorem onlyChanges_effect (i : Instr) (s : State) : OnlyChanges (writtenRegs i) s (effect i s) := by
  cases i with
  | nop => exact ⟨fun _ _ => rfl, rfl, rfl, rfl, rfl, rfl, rfl⟩
  | norm ch => exact s.onlyChanges_normalizeTo ch _
  | normi ch => exact s.onlyChanges_normalizeTo ch _
  | est => exact s.onlyChanges_estimate _
  | pid => exact s.onlyChanges_pidStep _ _
  | pidi => exact s.onlyChanges_pidStep _ _
  | map => exact s.onlyChanges_mapDuty _
  | mapi => exact s.onlyChanges_mapDuty _
  | tdelta =>
    obtain ⟨t, ht, -, -, hframe⟩ := tdeltaResult.2 s
    exact exec_next ht ▸ hframe
  | loop => exact s.onlyChanges_iteration _

/-- No command writes an RW register or CMD (10_state.md R20). -/
theorem access_of_mem_writtenRegs {i : Instr} {r : Reg} (h : r ∈ writtenRegs i) : r.access = .ro ∨ r = .status := by
  revert r
  cases i <;> simp only [writtenRegs] <;> decide

/-! ## States with the same registers -/

/-- `t` differs from `s` at most in the sample port and in the fields around the registers: the reset line, the
window, the bus answer, the waiting inputs and the free counter. -/
def SameRegisters (s t : State) : Prop :=
  t = { s with
    sample := t.sample, inReset := t.inReset, window := t.window, response := t.response, pending := t.pending
    freeCount := t.freeCount }

theorem SameRegisters.readReg {s t : State} (h : SameRegisters s t) {q : Reg} (hq : ∀ j, q ≠ .sample j) :
    t.readReg q = s.readReg q := by
  rw [h]
  cases q with
  | sample j => exact absurd rfl (hq j)
  | _ => rfl

theorem State.readReg_setCmd {q : Reg} (hq : q ≠ .cmd) (s : State) (v : Word) :
    ({ s with cmd := v } : State).readReg q = s.readReg q := by
  cases q with
  | cmd => exact absurd rfl hq
  | _ => rfl

theorem sameRegisters_writeReg (s : State) (r : Reg) (v : Word) (w : Window) (rest : List Input) :
    SameRegisters (s.writeReg r v)
      (((({ s with pending := rest } : State).openWindow w).writeReg r v).answer .done).closeWindow := by
  cases r <;> rfl

/-! ## What a step can do to the registers -/

/-- Every way a step can leave the registers, with the input it took. -/
inductive StepCase (s t : State) : Prop where
  /-- No register changes: no input, a read, an access under reset, a Sample Source write, an edge of the reset
  input that is no release from reset. -/
  | kept (ht : SameRegisters s t)
  /-- The reset is released. -/
  | release (hs : s.releasesReset) (ht : SameRegisters State.reset t)
  /-- An instruction's word is written to CMD; `u` is the state its command meets. -/
  | command (i : Instr) (u : State) (hs : s.issues [i]) (hu : SameRegisters { s with cmd := encode i } u)
      (ht : SameRegisters (effect i u) t)
  /-- An illegal word is written to CMD. -/
  | illegal (v : Word) (w : Window) (rest : List Input) (hs : s.pending = .access (commandWrite v) w :: rest)
      (ht : SameRegisters (({ s with cmd := v } : State).raise .illcmd) t)
  /-- Another register is written. -/
  | write (r : Reg) (v : Word) (w : Window) (rest : List Input)
      (hs : s.pending = .access ⟨.write v, r.offset, 4⟩ w :: rest) (hr : r ≠ .cmd)
      (ht : SameRegisters (s.writeReg r v) t)

/-- An accepted access by its kind and its offset: `hostAccess_next` without the fields around the registers. -/
theorem stepCase_of_hostAccess {s u : State} {a : Access} {w : Window} {rest : List Input}
    (hs : s.pending = .access a w :: rest)
    (hu : hostAccess a (({ s with pending := rest } : State).openWindow w) = .next u) :
    StepCase s u.closeWindow := by
  obtain ⟨kind, off, bytes⟩ := a
  obtain ⟨hbytes, -, -, hcase⟩ := hostAccess_next hu
  obtain rfl : bytes = 4 := hbytes
  rcases hcase with ⟨r, -, -, rfl⟩ | ⟨v, i, hk, ho, hd, rfl⟩ | ⟨v, e, hk, ho, -, rfl⟩ | ⟨v, r, hk, ho, hr, rfl⟩
  · exact .kept rfl
  · obtain rfl : kind = .write v := hk
    obtain rfl : 0x00 = off := Reg.ofOffset_eq_some_iff.mp ho
    obtain rfl := encode_of_decode hd
    exact .command i { s with pending := rest, window := w, cmd := encode i }
      ⟨i, List.mem_singleton_self i, w, rest, hs⟩ rfl rfl
  · obtain rfl : kind = .write v := hk
    obtain rfl : 0x00 = off := Reg.ofOffset_eq_some_iff.mp ho
    exact .illegal v w rest hs rfl
  · obtain rfl : kind = .write v := hk
    obtain rfl : r.offset = off := Reg.ofOffset_eq_some_iff.mp ho
    exact .write r v w rest hs hr (sameRegisters_writeReg s r v w rest)

/-- What every invariant of the registers cites: `step_next` without the fields around them. -/
theorem step_cases {s t : State} (h : step s = .next t) : StepCase s t := by
  rcases step_next h with ⟨-, rfl⟩ | ⟨a, w, rest, -, -, rfl⟩ | ⟨a, w, rest, u, hs, -, hu, rfl⟩ |
    ⟨w, rest, -, rfl⟩ | ⟨rest, -, rfl⟩ | ⟨rest, hs, rfl⟩
  · exact .kept rfl
  · exact .kept rfl
  · exact stepCase_of_hostAccess hs hu
  · exact .kept rfl
  · exact .kept rfl
  · split_ifs with hr
    · exact .release ⟨hr, rest, hs⟩ rfl
    · exact .kept rfl

/-! ## The writers of a register -/

/-- A register other than SAMPLE changes only by the reset, a command that writes it, a host write that touches
it, or an illegal word's flag. -/
theorem writer_of_changed {s t : State} (h : step s = .next t) {r : Reg} (hr : ∀ j, r ≠ .sample j)
    (hne : t.readReg r ≠ s.readReg r) :
    s.releasesReset ∨ (∃ i, s.issues [i] ∧ r ∈ writtenRegs i) ∨ r = .status ∨
    ∃ (q : Reg) (v : Word) (w : Window) (rest : List Input),
      s.pending = .access ⟨.write v, q.offset, 4⟩ w :: rest ∧ q.access ≠ .ro ∧ r ∈ q.touchedByWrite := by
  cases step_cases h with
  | kept ht => exact absurd (ht.readReg hr) hne
  | release hs _ => exact .inl hs
  | command i u hs hu ht =>
    by_cases hcmd : r = .cmd
    · obtain ⟨i', -, w, rest, hp⟩ := hs
      subst hcmd
      exact .inr (.inr (.inr ⟨.cmd, encode i', w, rest, hp, by decide, by decide⟩))
    · refine .inr (.inl ⟨i, hs, by_contra fun hmem => hne ?_⟩)
      rw [ht.readReg hr, (onlyChanges_effect i u).1 r hmem, hu.readReg hr, State.readReg_setCmd hcmd]
  | illegal v w rest hs ht =>
    by_cases hstatus : r = .status
    · exact .inr (.inr (.inl hstatus))
    · refine .inr (.inr (.inr ⟨.cmd, v, w, rest, hs, by decide, by_contra fun hmem => hne ?_⟩))
      have hcmd : r ≠ .cmd := fun hc => hmem (List.mem_singleton.mpr hc)
      rw [ht.readReg hr, State.readReg_raise_of_ne_status hstatus, State.readReg_setCmd hcmd]
  | write q v w rest hs hq ht =>
    refine .inr (.inr (.inr ⟨q, v, w, rest, hs, fun hro => hne ?_, by_contra fun hmem => hne ?_⟩))
    · rw [ht.readReg hr, State.writeReg_of_ro_or_reserved (.inl hro)]
    · rw [ht.readReg hr, State.readReg_writeReg_of_not_mem hmem]

/-- A host write of another register touches only RANGE[i] besides the one written. -/
theorem Reg.mem_touchedByWrite {r q : Reg} (hr : ∀ j, r ≠ .range j) : r ∈ q.touchedByWrite ↔ r = q := by
  cases q with
  | cal i => simp [Reg.touchedByWrite, hr i]
  | _ => simp [Reg.touchedByWrite]

/-- Settles O19: no command writes an RW register or CMD, and a host write touches only the one written. -/
theorem hostRegistersChangeOnlyByTheHost : Obligations.HostRegistersChangeOnlyByTheHost := by
  intro s t r h hacc hne
  have hsample : ∀ j, r ≠ .sample j := by rintro j rfl; simp [Reg.access] at hacc
  have hrange : ∀ j, r ≠ .range j := by rintro j rfl; simp [Reg.access] at hacc
  rcases writer_of_changed h hsample hne with hrel | ⟨i, -, hmem⟩ | rfl | ⟨q, v, w, rest, hs, -, hmem⟩
  · exact .inl hrel
  · rcases access_of_mem_writtenRegs hmem with hro | rfl
    · simp [hro] at hacc
    · simp [Reg.access] at hacc
  · simp [Reg.access] at hacc
  · obtain rfl := (Reg.mem_touchedByWrite hrange).mp hmem
    exact .inr ⟨v, w, rest, hs⟩

/-! ## The writers of the result registers (10_state.md R31, R32, R38 to R45) -/

theorem State.issues_of_mem {s : State} {i : Instr} {is : List Instr} (hs : s.issues [i]) (hi : i ∈ is) :
    s.issues is := by
  obtain ⟨i', hi', hp⟩ := hs
  exact ⟨i', List.mem_singleton.mp hi' ▸ hi, hp⟩

/-- An RO register that no host write derives changes only under a command that writes it. -/
theorem command_of_changed {s t : State} (h : step s = .next t) (hrel : ¬ s.releasesReset) {r : Reg}
    (hro : r.access = .ro) (hsample : ∀ j, r ≠ .sample j) (hrange : ∀ j, r ≠ .range j)
    (hne : t.readReg r ≠ s.readReg r) : ∃ i, s.issues [i] ∧ r ∈ writtenRegs i := by
  rcases writer_of_changed h hsample hne with hs | hcmd | rfl | ⟨q, v, w, rest, -, hq, hmem⟩
  · exact absurd hs hrel
  · exact hcmd
  · cases hro
  · exact absurd ((Reg.mem_touchedByWrite hrange).mp hmem ▸ hro) hq

/-- The same for a list of registers, with the commands that write one of them. -/
theorem issues_of_changed {s t : State} (h : step s = .next t) (hrel : ¬ s.releasesReset) {rs : List Reg}
    {is : List Instr} (hro : ∀ r ∈ rs, r.access = .ro ∧ (∀ j, r ≠ .sample j) ∧ ∀ j, r ≠ .range j)
    (his : ∀ i, i ∈ is ∨ ∀ r ∈ rs, r ∉ writtenRegs i) (hne : ∃ r ∈ rs, t.readReg r ≠ s.readReg r) :
    s.issues is := by
  obtain ⟨r, hr, hne⟩ := hne
  obtain ⟨hacc, hsample, hrange⟩ := hro r hr
  obtain ⟨i, hs, hmem⟩ := command_of_changed h hrel hacc hsample hrange hne
  exact State.issues_of_mem hs ((his i).resolve_right fun hnot => hnot r hr hmem)

/-- OFFSET is its two halves (10_state.md R43). -/
theorem append_halves (x : Double) : x.extractLsb' 32 32 ++ x.extractLsb' 0 32 = x := by
  apply BitVec.eq_of_getLsbD_eq
  intro k hk
  rw [BitVec.getLsbD_append]
  by_cases hlow : k < 32
  · simp [hlow]
  · simp [hlow, show k - 32 < 32 by omega, show 32 + (k - 32) = k by omega]

theorem offset_eq_of_halves {s t : State} (hlo : t.readReg .offsetLo = s.readReg .offsetLo)
    (hhi : t.readReg .offsetHi = s.readReg .offsetHi) : t.offset = s.offset := by
  rw [← append_halves t.offset, ← append_halves s.offset]
  exact congrArg₂ _ hhi hlo

/-- A change of NORM or OFFSET shows in a register the host reads. -/
theorem exists_reg_of_norm_or_offset_ne {s t : State} (hne : t.norm ≠ s.norm ∨ t.offset ≠ s.offset) :
    ∃ r ∈ [Reg.offsetLo, .offsetHi] ++ (List.finRange 8).map .norm, t.readReg r ≠ s.readReg r := by
  by_contra hall
  push Not at hall
  rcases hne with hnorm | hoffset
  · exact hnorm (Vector.ext fun i hi => hall (.norm ⟨i, hi⟩) (by simp))
  · exact hoffset (offset_eq_of_halves (hall .offsetLo (by simp)) (hall .offsetHi (by simp)))

/-- Settles O18: each result register is read as an RO register, and the commands that write it are those of
`writtenRegs`. -/
theorem resultRegistersHaveOnlyTheirWriters : Obligations.ResultRegistersHaveOnlyTheirWriters := by
  intro s t h hrel
  refine ⟨fun hne => ?_, fun hne => ?_, fun hne => ?_, fun hne => ?_, fun hne => ?_⟩
  · refine issues_of_changed h hrel (rs := [.tickPrev, .elapsed]) (by decide) (fun i => ?_)
      (by simpa [State.readReg] using hne)
    cases i with
    | tdelta => exact .inl (by decide)
    | _ => exact .inr (by decide +revert)
  · refine issues_of_changed h hrel (rs := [.integral, .prevError, .correction]) (by decide) (fun i => ?_)
      (by simpa [State.readReg] using hne)
    cases i with
    | pid | pidi | loop => exact .inl (by decide)
    | _ => exact .inr (by decide +revert)
  · obtain ⟨i, hs, hmem⟩ := command_of_changed h hrel (r := .normOut) rfl (by decide) (by decide) hne
    cases i with
    | norm ch | normi ch => exact ⟨ch, State.issues_of_mem hs (by simp)⟩
    | _ => exact absurd hmem (by decide)
  · refine issues_of_changed h hrel (by decide) (fun i => ?_) (exists_reg_of_norm_or_offset_ne hne)
    cases i with
    | est | loop => exact .inl (by decide)
    | _ => exact .inr (by decide +revert)
  · refine issues_of_changed h hrel (rs := [.dutyL, .dutyR, .pwmL, .pwmR]) (by decide) (fun i => ?_)
      (by simpa [State.readReg] using hne)
    cases i with
    | map | mapi | loop => exact .inl (by decide)
    | _ => exact .inr (by decide +revert)

end Sys2Proof.Machine

/-! PROOFS. The flags: no command reads one, and only the host and the reset clear one (10_state.md R25, R48;
60_exceptions.md R177). -/

namespace Sys2Proof.Machine

/-! ## Commands and STATUS (10_state.md R48) -/

/-- `s` with other flags. -/
def State.withStatus (s : State) (v : BitVec 4) : State := { s with status := v }

/-- `f` does the same whatever STATUS holds, and raises on top of it what it raises on clear flags. -/
def BlindToStatus (f : State → State) : Prop :=
  ∀ (s : State) (v : BitVec 4), f (s.withStatus v) = (f s).withStatus (v ||| (f (s.withStatus 0#4)).status)

theorem BlindToStatus.comp {f g : State → State} (hg : BlindToStatus g) (hf : BlindToStatus f) :
    BlindToStatus (g ∘ f) := by
  intro s v
  have hclear : (g (f (s.withStatus 0#4))).status =
      (f (s.withStatus 0#4)).status ||| (g ((f s).withStatus 0#4)).status := by
    rw [hf s 0#4, hg, BitVec.zero_or]
    rfl
  rw [Function.comp_apply, Function.comp_apply, Function.comp_apply, hclear, hf, hg, BitVec.or_assoc]

/-- Raising a flag under a condition, said on clear flags. -/
theorem ite_or_mask (c : Bool) (v m : BitVec 4) :
    (if c then v ||| m else v) = v ||| if c then 0#4 ||| m else 0#4 := by
  cases c <;> simp

theorem blindToStatus_normalizeTo (ch : Chan) (raw : State → Half)
    (hraw : ∀ s v, raw (s.withStatus v) = raw s) : BlindToStatus fun s => s.normalizeTo ch (raw s) := by
  intro s v
  simp only [hraw]
  exact congrArg (s.normalizeTo ch (raw s)).withStatus (ite_or_mask _ v _)

theorem blindToStatus_estimate (w : Vector Half 8) : BlindToStatus (State.estimate w) :=
  fun s v => congrArg (s.estimate w).withStatus (ite_or_mask s.anyDegenerate v Flag.degen.mask)

theorem blindToStatus_pidStep (e dtr : State → F32) (he : ∀ s v, e (s.withStatus v) = e s)
    (hdtr : ∀ s v, dtr (s.withStatus v) = dtr s) : BlindToStatus fun s => s.pidStep (e s) (dtr s) := by
  intro s v
  simp only [he, hdtr]
  exact congrArg (s.pidStep (e s) (dtr s)).withStatus (ite_or_mask _ v _)

theorem blindToStatus_mapDuty (c : State → F32) (hc : ∀ s v, c (s.withStatus v) = c s) :
    BlindToStatus fun s => s.mapDuty (c s) := by
  intro s v
  simp only [hc]
  have hpair (v : BitVec 4) : (s.withStatus v).legalPair = s.legalPair := rfl
  cases h : s.legalPair with
  | true =>
    rw [State.mapDuty_legal s _ h, State.mapDuty_legal _ _ ((hpair v).trans h),
      State.mapDuty_legal _ _ ((hpair 0#4).trans h)]
    simp only [State.withStatus]
    congr 1
    exact ite_or_mask _ v _
  | false =>
    rw [State.mapDuty_illegal s _ h, State.mapDuty_illegal _ _ ((hpair v).trans h),
      State.mapDuty_illegal _ _ ((hpair 0#4).trans h)]
    exact congrArg (State.withStatus _) (congrArg _ (BitVec.zero_or.symm))

theorem blindToStatus_iteration (w : Vector Half 8) : BlindToStatus (State.iteration w) :=
  (blindToStatus_mapDuty State.correctionLive fun _ _ => rfl).comp
    ((blindToStatus_pidStep State.errorLive State.dtIn (fun _ _ => rfl) fun _ _ => rfl).comp
      (blindToStatus_estimate w))

theorem blindToStatus_effect (i : Instr) : BlindToStatus (effect i) := by
  cases i with
  | nop => exact fun s v => congrArg s.withStatus BitVec.or_zero.symm
  | norm ch => exact blindToStatus_normalizeTo ch (State.sampleRead · ch) fun _ _ => rfl
  | normi ch => exact blindToStatus_normalizeTo ch State.opa fun _ _ => rfl
  | est => exact blindToStatus_estimate _
  | pid => exact blindToStatus_pidStep State.errorLive State.dtIn (fun _ _ => rfl) fun _ _ => rfl
  | pidi => exact blindToStatus_pidStep State.errIn State.dtIn (fun _ _ => rfl) fun _ _ => rfl
  | map => exact blindToStatus_mapDuty State.correction fun _ _ => rfl
  | mapi => exact blindToStatus_mapDuty State.corrIn fun _ _ => rfl
  | tdelta => exact fun s v => congrArg (effect .tdelta s).withStatus BitVec.or_zero.symm
  | loop => exact blindToStatus_iteration _

/-- Settles O17: every command's effect is blind to STATUS. -/
theorem noCommandReadsAFlag : Obligations.NoCommandReadsAFlag := fun i s =>
  ⟨effect i s, (effect i (s.withStatus 0#4)).status, fun v =>
    (exec_effect i (s.withStatus v)).trans (congrArg _ (blindToStatus_effect i s v))⟩

/-! ## Flags stay set (60_exceptions.md R177) -/

theorem exists_effect_status (i : Instr) (s : State) : ∃ raised, (effect i s).status = s.status ||| raised :=
  ⟨_, congrArg State.status (blindToStatus_effect i s s.status)⟩

theorem State.flag_of_status_or {s t : State} {raised : BitVec 4} (ht : t.status = s.status ||| raised) {f : Flag}
    (hf : s.flag f = true) : t.flag f = true := by
  rw [State.flag] at hf ⊢
  rw [ht, BitVec.getLsbD_or, hf, Bool.true_or]

theorem flag_effect {i : Instr} {s : State} {f : Flag} (hf : s.flag f = true) : (effect i s).flag f = true := by
  obtain ⟨raised, h⟩ := exists_effect_status i s
  exact State.flag_of_status_or h hf

theorem SameRegisters.flag {s t : State} (h : SameRegisters s t) (f : Flag) : t.flag f = s.flag f := by
  rw [h]
  rfl

theorem State.flag_clearFlags (s : State) (v : Word) (f : Flag) :
    (s.clearFlags v).flag f = (s.flag f && !v.getLsbD f.bit) := by
  have hbit : f.bit < 4 := by cases f <;> decide
  simp [State.flag, hbit]

/-- A host write clears a flag only if it writes 1 to that flag's bit of STATUS. -/
theorem State.flag_writeReg {s : State} {f : Flag} (hf : s.flag f = true) {r : Reg} {v : Word}
    (hclear : ¬(r = .status ∧ v.getLsbD f.bit = true)) : (s.writeReg r v).flag f = true := by
  by_cases hr : r = .status
  · subst hr
    have hbit : v.getLsbD f.bit = false := by simpa using hclear
    exact (s.flag_clearFlags v f).trans (by rw [hf, hbit]; rfl)
  · rw [State.flag, State.writeReg_status, if_neg hr]
    exact hf

theorem flag_of_step {s t : State} {f : Flag} (h : step s = .next t) (hf : s.flag f = true) :
    t.flag f = true ∨ s.releasesReset ∨
    ∃ v w rest, s.pending = .access ⟨.write v, 0x04, 4⟩ w :: rest ∧ v.getLsbD f.bit = true := by
  cases step_cases h with
  | kept ht => exact .inl ((ht.flag f).trans hf)
  | release hs _ => exact .inr (.inl hs)
  | command i u _ hu ht => exact .inl ((ht.flag f).trans (flag_effect ((hu.flag f).trans hf)))
  | illegal v w rest _ ht => exact .inl ((ht.flag f).trans (State.flag_of_status_or rfl hf))
  | write r v w rest hs _ ht =>
    by_cases hclear : r = .status ∧ v.getLsbD f.bit = true
    · obtain ⟨rfl, hbit⟩ := hclear
      exact .inr (.inr ⟨v, w, rest, hs, hbit⟩)
    · exact .inl ((ht.flag f).trans (State.flag_writeReg hf hclear))

/-- Settles O16: a step keeps every flag but those the host clears or the reset does. -/
theorem flagsAreSticky : Obligations.FlagsAreSticky := by
  refine ⟨fun s t f => flag_of_step, fun s v => ?_, fun i s t f ht hf => ?_⟩
  · exact ⟨_, memWrite_offset_of_ne_cmd (r := .status) (by simp) v s, s.onlyChanges_writeReg .status v,
      s.flag_clearFlags v⟩
  · obtain rfl := exec_next ht
    exact flag_effect hf

end Sys2Proof.Machine

/-! PROOFS. The state invariant `Inv`: it holds at reset, each part of a command keeps it, and so does every step
(10_state.md R45, 40_normalize_estimate.md R100, R104, 41_pid.md R122, 42_actuation.md R145). -/

namespace Sys2Proof.Machine

open Binary32

/-- Settles O20: every register `Inv` speaks of is 0. -/
theorem invariantHoldsAtReset : Obligations.InvariantHoldsAtReset where
  left := by unfold DutyShown; decide
  right := by unfold DutyShown; decide
  integral := by decide
  normOut := by unfold NormInRange; decide
  norm i := by
    have hzero : State.reset.norm[i] = 0#32 := by simp [State.reset]
    rw [hzero]
    unfold NormInRange
    decide
  offset := by decide

/-! ## `Inv` speaks of registers no host write reaches -/

theorem Inv.of_sameRegisters {s t : State} (h : Inv s) (ht : SameRegisters s t) : Inv t := by
  obtain ⟨hleft, hright, hintegral, hnormOut, hnorm, hoffset⟩ := h
  rw [ht]
  exact ⟨hleft, hright, hintegral, hnormOut, hnorm, hoffset⟩

theorem Inv.setCmd {s : State} (h : Inv s) (v : Word) : Inv { s with cmd := v } := by
  obtain ⟨hleft, hright, hintegral, hnormOut, hnorm, hoffset⟩ := h
  exact ⟨hleft, hright, hintegral, hnormOut, hnorm, hoffset⟩

theorem Inv.raise {s : State} (h : Inv s) (f : Flag) : Inv (s.raise f) := by
  obtain ⟨hleft, hright, hintegral, hnormOut, hnorm, hoffset⟩ := h
  exact ⟨hleft, hright, hintegral, hnormOut, hnorm, hoffset⟩

theorem Inv.writeReg {s : State} (h : Inv s) (r : Reg) (v : Word) : Inv (s.writeReg r v) where
  left := by simpa using h.left
  right := by simpa using h.right
  integral := by simpa using h.integral
  normOut := by simpa using h.normOut
  norm i := by simpa using h.norm i
  offset := by simpa using h.offset

/-! ## The parts of the commands -/

theorem normInRange_ofInt_normalizeValue (c : Cal) (raw : Half) :
    NormInRange (BitVec.ofInt 32 (normalizeValue c raw)) := by
  unfold NormInRange
  rw [toInt_ofInt_normalizeValue, ← normalizeValue_eq_normalized]
  exact abs_le.mp (abs_normalizeValue_le c raw)

theorem Inv.normalizeTo {s : State} (h : Inv s) (ch : Chan) (raw : Half) : Inv (s.normalizeTo ch raw) where
  left := h.left
  right := h.right
  integral := h.integral
  normOut := normInRange_ofInt_normalizeValue _ raw
  norm := h.norm
  offset := h.offset

theorem Inv.estimate {s : State} (h : Inv s) (w : Vector Half 8) : Inv (s.estimate w) where
  left := h.left
  right := h.right
  integral := h.integral
  normOut := h.normOut
  norm i := by simpa [State.liveNorm] using normInRange_ofInt_normalizeValue s.cal[i] (s.sampleRead i)
  offset := by
    rw [State.estimate_offset_toInt]
    exact abs_lt.mp ((abs_tdiv_le_abs _ 8).trans_lt (abs_weightedSum_lt w s.abs_liveNorm_le))

/-- The ceiling of R122, whatever the sum, a NaN included. -/
theorem fgt_nextIntegral (integral e dt : F32) : fgt (nextIntegral integral e dt) Config.maxIntegral = false := by
  simp only [nextIntegral]
  split_ifs with h
  · decide
  · exact Bool.eq_false_iff.mpr h

theorem Inv.pidStep {s : State} (h : Inv s) (e dtr : F32) : Inv (s.pidStep e dtr) where
  left := h.left
  right := h.right
  integral := by rw [State.pidStep_integral]; exact fgt_nextIntegral _ _ _
  normOut := h.normOut
  norm := h.norm
  offset := h.offset

/-- A legal pair keeps -32768, which has no magnitude in a line, out of the duties. -/
theorem dutyShown_of_dutyWithin {s : State} (hlegal : Claims.pairIsLegal s) {duty pwm : Word}
    (h : DutyWithin s.neutralSpeed.toInt s.dutyMax.toInt duty pwm) : DutyShown duty pwm := by
  obtain ⟨hlo, hhi, hpwm⟩ := h
  obtain ⟨hneg, -⟩ := hlegal
  have hmax := s.dutyMax.toInt_lt
  exact ⟨by omega, by omega, hpwm⟩

theorem Inv.mapDuty {s : State} (h : Inv s) (c : F32) : Inv (s.mapDuty c) := by
  cases hpair : s.legalPair with
  | false => exact State.mapDuty_illegal s c hpair ▸ h.raise .cfgerr
  | true =>
    have hlegal : Claims.pairIsLegal s := s.legalPair_iff.mp hpair
    obtain ⟨hleft, hright⟩ := State.dutyWithin_mapDuty hlegal c
    exact {
      left := dutyShown_of_dutyWithin hlegal hleft
      right := dutyShown_of_dutyWithin hlegal hright
      integral := by simpa using h.integral
      normOut := by simpa using h.normOut
      norm := by simpa using h.norm
      offset := by simpa using h.offset }

theorem Inv.effect {s : State} (h : Inv s) (i : Instr) : Inv (effect i s) := by
  cases i with
  | nop => exact h
  | norm ch | normi ch => exact h.normalizeTo ch _
  | est => exact h.estimate _
  | pid | pidi => exact h.pidStep _ _
  | map | mapi => exact h.mapDuty _
  | tdelta => exact ⟨h.left, h.right, h.integral, h.normOut, h.norm, h.offset⟩
  | loop => exact ((h.estimate _).pidStep _ _).mapDuty _

/-- Settles O21: `Inv` holds after each of the cases of a step. -/
theorem everyStepKeepsTheInvariant : Obligations.EveryStepKeepsTheInvariant := by
  intro s t h hstep
  cases step_cases hstep with
  | kept ht => exact h.of_sameRegisters ht
  | release _ ht => exact invariantHoldsAtReset.of_sameRegisters ht
  | command i u _ hu ht => exact (((h.setCmd _).of_sameRegisters hu).effect i).of_sameRegisters ht
  | illegal v w rest _ ht => exact ((h.setCmd v).raise .illcmd).of_sameRegisters ht
  | write r v w rest _ _ ht => exact (h.writeReg r v).of_sameRegisters ht

end Sys2Proof.Machine

/-! PROOFS. The host bus and the reset input as steps: reads, writes, refused accesses, byte lanes, the edges of
reset (20_memory.md R60 to R65, 70_reset_and_hazards.md R200, R201). -/

namespace Sys2Proof.Machine

/-! ## Reads (20_memory.md R62) -/

theorem hostAccess_read (r : Reg) (s : State) :
    hostAccess ⟨.read, r.offset, 4⟩ s = .next (s.answer (.data (s.readReg r))) := by
  rw [hostAccess, if_pos (accepted_at_offset .read r)]
  simp only [memRead_offset]

/-- `s` after an access with window `w` that only gets the answer `r`. -/
def State.answered (s : State) (w : Window) (rest : List Input) (r : Response) : State :=
  ((({ s with pending := rest } : State).openWindow w).answer r).closeWindow

theorem sameRegisters_answered (s : State) (w : Window) (rest : List Input) (r : Response) :
    SameRegisters s (s.answered w rest r) := rfl

theorem step_read {s : State} {r : Reg} {w : Window} {rest : List Input} (hreset : s.inReset = false)
    (hpending : s.pending = .access ⟨.read, r.offset, 4⟩ w :: rest) :
    step s = .next (s.answered w rest (.data ((s.openWindow w).readReg r))) := by
  rw [step_access hpending hreset, hostAccess_read]
  cases r <;> rfl

theorem State.readReg_openWindow {q : Reg} (hq : ∀ j, q ≠ .sample j) (s : State) (w : Window) :
    (s.openWindow w).readReg q = s.readReg q :=
  SameRegisters.readReg (s := s) (t := s.openWindow w) rfl hq

/-- Settles O8: a read only answers and closes its window, so the second read finds the same register. -/
theorem hostReadsHaveNoSideEffect : Obligations.HostReadsHaveNoSideEffect := by
  intro s r w rest hreset hpending
  have hsame := sameRegisters_answered s w rest (.data ((s.openWindow w).readReg r))
  refine ⟨_, step_read hreset hpending, rfl, rfl, fun q hq => hsame.readReg hq, fun hquiet => ?_,
    fun w' rest' hr hrest => ?_⟩
  · simp [State.answered, hquiet]
  · refine ⟨_, step_read (s := s.answered w rest _) hreset hrest, congrArg Response.data ?_⟩
    exact (State.readReg_openWindow hr _ w').trans ((hsame.readReg hr).trans (State.readReg_openWindow hr s w).symm)

/-- Settles O13: the two reads are the halves of OFFSET. -/
theorem offsetIsReadAsTwoWords : Obligations.OffsetIsReadAsTwoWords := fun s =>
  ⟨_, _, memRead_offset .offsetLo s, memRead_offset .offsetHi s, append_halves s.offset⟩

theorem zero_append_eq_setWidth {n : Nat} (m : Nat) (x : BitVec n) : 0#m ++ x = x.setWidth (m + n) := by
  apply BitVec.eq_of_toNat_eq
  rw [BitVec.toNat_append, BitVec.toNat_setWidth_of_le (Nat.le_add_left n m)]
  simp

/-- The registers of R23's table that are read as plain words. -/
def wordRegs : List Reg :=
  [.cmd, .status, .opa, .errIn, .dtIn, .corrIn, .tickIn, .tickPrev, .elapsed, .kp, .ki, .kd, .integral, .prevError,
    .correction, .normOut, .dutyL, .dutyR, .pwmL, .pwmR]

/-- Settles O54: each offset of the table is a register's, and its read is that register's view. -/
theorem readsShowTheRegisters : Obligations.ReadsShowTheRegisters := by
  intro s
  refine ⟨fun p hp => ?_, ⟨_, _, memRead_offset .neutralSpeed s, ?_, memRead_offset .dutyMax s, ?_⟩, fun i =>
    ⟨memRead_offset (.cal i) s, ⟨_, memRead_offset (.range i) s, Cal.toInt_ofInt_range _⟩,
      memRead_offset (.norm i) s, ?_⟩⟩
  · have hp' : p ∈ wordRegs.map fun r => (r.offset, s.readReg r) := by
      simpa only [zero_append_eq_setWidth, wordRegs, List.map, Reg.offset, State.readReg] using hp
    obtain ⟨r, -, rfl⟩ := List.mem_map.mp hp'
    exact memRead_offset r s
  · exact BitVec.toInt_signExtend_of_le (by decide)
  · exact BitVec.toInt_signExtend_of_le (by decide)
  · rw [zero_append_eq_setWidth]
    exact memRead_offset (.sample i) s

/-! ## Byte lanes and bus addresses (20_memory.md R60, R65) -/

/-- Byte `j` of a register's four is lane `j` of its view. -/
theorem State.windowByte_offset_add (s : State) (r : Reg) {j : Nat} (hj : j < 4) :
    s.windowByte (r.offset + j) = some ((s.readReg r).extractLsb' (8 * j) 8) := by
  have hacc : r.offset % 4 = 0 ∧ r.offset ≤ 0xFC := by
    simpa [Access.accepted] using accepted_at_offset .read r
  have hlane : (r.offset + j) % 4 = j := by omega
  rw [State.windowByte, hlane, Nat.add_sub_cancel, memRead_offset]
  rfl

/-- Settles O14: the four lanes are the word's base-256 digits. -/
theorem byteLanesAreLittleEndian : Obligations.ByteLanesAreLittleEndian := by
  intro s r
  refine ⟨_, _, _, _, s.windowByte_offset_add r (j := 0) (by decide), s.windowByte_offset_add r (j := 1) (by decide),
    s.windowByte_offset_add r (j := 2) (by decide), s.windowByte_offset_add r (j := 3) (by decide), ?_⟩
  have hlt := (s.readReg r).isLt
  simp only [BitVec.extractLsb'_toNat, Nat.shiftRight_eq_div_pow]
  omega

/-- Settles O15: an address of the window is BASE plus its offset. -/
theorem windowStandsAtBase : Obligations.WindowStandsAtBase := by
  intro addr off
  rw [offsetOfAddress, busAddress]
  split_ifs with hin
  · rw [Option.some_inj]
    omega
  · simp only [false_iff]
    omega

/-! ## Refused accesses (20_memory.md R64) -/

theorem Access.accepted_eq_false_iff {a : Access} :
    a.accepted = false ↔ a.bytes ≠ 4 ∨ a.off % 4 ≠ 0 ∨ 0xFC < a.off := by
  simp only [Access.accepted, Bool.eq_false_iff, ne_eq, Bool.and_eq_true, beq_iff_eq, decide_eq_true_eq]
  omega

/-- A step ends in a next state, or in the bus error of a refused access out of reset. -/
theorem step_next_or_fault (s : State) :
    (∃ t, step s = .next t) ∨
    ∃ a w rest, s.inReset = false ∧ s.pending = .access a w :: rest ∧ a.accepted = false ∧
      step s = .fault (.busError a.off a.bytes) := by
  rcases hp : s.pending with _ | ⟨⟨a, w⟩ | _ | _ | _, rest⟩
  · exact .inl ⟨_, step_nil hp⟩
  · cases hr : s.inReset with
    | true => exact .inl ⟨_, step_access_inReset hp hr⟩
    | false =>
      rcases hostAccess_cases a (({ s with pending := rest } : State).openWindow w) with ⟨-, t, ht⟩ | ⟨hacc, hf⟩
      · exact .inl ⟨_, by rw [step_access hp hr, ht]; rfl⟩
      · exact .inr ⟨a, w, rest, rfl, rfl, hacc, by rw [step_access hp hr, hf]; rfl⟩
  · exact .inl ⟨_, step_sampleWrite hp⟩
  · exact .inl ⟨_, step_resetAssert hp⟩
  · exact .inl ⟨_, step_resetRelease hp⟩

/-- Settles O10: a step is a next state or the bus error of a refused access. -/
theorem onlyRefusedAccessesStop : Obligations.OnlyRefusedAccessesStop := by
  intro s
  refine ⟨⟨fun ⟨f, hf⟩ => ?_, fun ⟨hreset, a, w, rest, hp, hrefused⟩ => ?_⟩, fun f hf => ?_⟩
  · rcases step_next_or_fault s with ⟨t, ht⟩ | ⟨a, w, rest, hreset, hp, hacc, -⟩
    · rw [ht] at hf; cases hf
    · exact ⟨hreset, a, w, rest, hp, Access.accepted_eq_false_iff.mp hacc⟩
  · have hacc := Access.accepted_eq_false_iff.mpr hrefused
    refine ⟨.busError a.off a.bytes, ?_⟩
    rw [step_access hp hreset, hostAccess, hacc]
    rfl
  · rcases step_next_or_fault s with ⟨t, ht⟩ | ⟨a, w, rest, -, -, -, ht⟩
    · rw [ht] at hf; cases hf
    · rw [ht] at hf; cases hf

/-! ## Writes (20_memory.md R63) -/

theorem hostAccess_write (r : Reg) (v : Word) (s : State) :
    hostAccess ⟨.write v, r.offset, 4⟩ s = thenNext (memWrite r.offset v s) (fun t => t.answer .done) :=
  if_pos (accepted_at_offset (.write v) r)

theorem step_write {s : State} {r : Reg} {v : Word} {w : Window} {rest : List Input} (hreset : s.inReset = false)
    (hpending : s.pending = .access ⟨.write v, r.offset, 4⟩ w :: rest) :
    step s = thenNext (memWrite r.offset v { s with pending := rest, window := w })
      (fun t => (t.answer .done).closeWindow) := by
  rw [step_access hpending hreset, hostAccess_write, thenNext_thenNext]
  rfl

/-- A host write outside CMD is a next state with the registers `writeReg` leaves. -/
theorem exists_step_write {s : State} {r : Reg} {v : Word} {w : Window} {rest : List Input}
    (hreset : s.inReset = false) (hpending : s.pending = .access ⟨.write v, r.offset, 4⟩ w :: rest)
    (hr : r ≠ .cmd) :
    ∃ t, step s = .next t ∧ t.pending = rest ∧ t.inReset = false ∧ SameRegisters (s.writeReg r v) t := by
  refine ⟨_, ?_, ?_, ?_, sameRegisters_writeReg s r v w rest⟩
  · rw [step_write hreset hpending, memWrite_offset_of_ne_cmd hr]
    rfl
  · simp
  · simpa using hreset

/-- Settles O55: the write's own effect is `writeReg`'s, whose registers are known by access code. -/
theorem stepRunsTheHostWrite : Obligations.StepRunsTheHostWrite := by
  intro s r v w rest hreset hpending
  refine ⟨step_write hreset hpending, fun hrw => ?_, fun hw1c => ?_, fun hignored => ?_⟩
  · have hcmd : r ≠ .cmd := by rintro rfl; cases hrw
    have hsample : ∀ i, r ≠ .sample i := by rintro i rfl; cases hrw
    obtain ⟨t, ht, hrest, -, hsame⟩ := exists_step_write hreset hpending hcmd
    exact ⟨t, ht, hrest, (hsame.readReg hsample).trans (State.readReg_writeReg_of_rw hrw s v), fun q hq hqs =>
      (hsame.readReg hqs).trans (State.readReg_writeReg_of_not_mem hq s v)⟩
  · obtain rfl := Reg.access_eq_w1c.mp hw1c
    obtain ⟨t, ht, hrest, -, hsame⟩ := exists_step_write hreset hpending (by simp)
    exact ⟨t, ht, hrest, (hsame.readReg (by simp)).trans (s.readReg_writeReg_status v), fun q hq hqs =>
      (hsame.readReg hqs).trans (State.readReg_writeReg_of_not_mem (by simpa [Reg.touchedByWrite] using hq) s v)⟩
  · have hcmd : r ≠ .cmd := by rintro rfl; simp [Reg.access] at hignored
    obtain ⟨t, ht, hrest, -, hsame⟩ := exists_step_write hreset hpending hcmd
    rw [State.writeReg_of_ro_or_reserved hignored] at hsame
    exact ⟨t, ht, hrest, fun q hqs => hsame.readReg hqs⟩

theorem execute_of_decode {v : Word} {i : Instr} (h : decode v = .ok i) (s : State) : execute v s = exec i s := by
  rw [execute, h]

/-- Settles O11: the CMD write executes its word, and a legal word runs its command. -/
theorem stepRunsTheDecodedCommand : Obligations.StepRunsTheDecodedCommand := by
  intro s v i w rest hreset hpending hdecode
  rw [step_commandWrite hreset hpending, execute_of_decode hdecode]

/-- A CMD write of an instruction's word runs that instruction. -/
theorem step_encode {s : State} {i : Instr} {w : Window} {rest : List Input} (hreset : s.inReset = false)
    (hpending : s.pending = .access (commandWrite (encode i)) w :: rest) :
    step s = .next
      ((effect i { s with pending := rest, window := w, cmd := encode i }).answer .done).closeWindow := by
  rw [step_commandWrite hreset hpending, execute_encode, exec_effect]
  rfl

/-! ## Two steps for `tick t` (30_encoding.md R91) -/

theorem run_succ_of_step {s t : State} (h : step s = .next t) (n : Nat) :
    Sys2Proof.core.run (n + 1) s = Sys2Proof.core.run n t := by
  have hstep : Sys2Proof.core.step s = .next t := h
  simp only [Host.Core.run, hstep]

/-- Settles O39: the first access writes TICK_IN, and the second runs TDELTA on it. -/
theorem tickPseudoMeasuresElapsedTime : Obligations.TickPseudoMeasuresElapsedTime := by
  intro s v hreset hpending
  let as : List Access := [⟨.write v.toWord, Reg.tickIn.offset, 4⟩, commandWrite (encode .tdelta)]
  have hs : (s.enqueue as).pending = .access ⟨.write v.toWord, Reg.tickIn.offset, 4⟩ Window.quiet ::
      [.access (commandWrite (encode .tdelta)) Window.quiet] := by simp [State.enqueue, hpending, as]
  obtain ⟨u, hu, hrest, hreset', hsame⟩ := exists_step_write (s := s.enqueue as) hreset hs (by simp)
  have hin : u.tickIn = v.toWord := by rw [hsame]; simp
  have hprev : u.tickPrev = s.tickPrev := by rw [hsame]; simp [State.enqueue]
  refine ⟨as, _, rfl, (run_succ_of_step hu 1).trans (run_succ_of_step (step_encode hreset' hrest) 0), ?_, hin, hin⟩
  exact congrArg₂ (· - ·) hin hprev

/-! ## The reset input (70_reset_and_hazards.md R200) -/

theorem readReg_reset {r : Reg} (hr : ∀ i, r ≠ .sample i) : State.reset.readReg r = 0#32 := by
  cases r with
  | sample i => exact absurd rfl (hr i)
  | cal i | range i | norm i => revert i; decide
  | _ => rfl

theorem sameRegisters_blockReset (s : State) : SameRegisters State.reset s.blockReset := rfl

/-- Settles O52: under reset an access only opens and closes its window, and the release leaves the reset
values. -/
theorem resetGivesTheResetValues : Obligations.ResetGivesTheResetValues := by
  refine ⟨fun s a w rest hreset hpending => ?_, fun s rest hreset hpending => ?_, fun r => readReg_reset⟩
  · exact ⟨_, step_access_inReset hpending hreset, hreset,
      fun r hr => (sameRegisters_answered s w rest .notAccepted).readReg hr⟩
  · refine ⟨({ s with pending := rest } : State).blockReset, ?_, rfl, rfl, rfl, fun r hr => ?_⟩
    · rw [step_resetRelease hpending, if_pos hreset]
    · exact ((sameRegisters_blockReset _).readReg hr).trans (readReg_reset hr)

/-- Settles O59: the assertion changes the reset line alone, and an idle release takes only its input. -/
theorem assertingResetPutsTheBlockInReset : Obligations.AssertingResetPutsTheBlockInReset := by
  refine fun s rest => ⟨fun hpending => ⟨_, step_resetAssert hpending, rfl, rfl, fun r => ?_⟩,
    fun hreset hpending => ?_⟩
  · cases r <;> rfl
  · rw [step_resetRelease hpending, hreset]
    rfl

/-- Settles O53: the reset keeps the port, released or not. -/
theorem resetKeepsTheSamplePort : Obligations.ResetKeepsTheSamplePort := by
  intro s t rest hpending h
  rcases hpending with hp | hp
  · rw [step_resetAssert hp] at h
    injection h with h
    rw [← h]
  · rw [step_resetRelease hp] at h
    injection h with h
    rw [← h]
    split <;> rfl

end Sys2Proof.Machine

/-! PROOFS. The sample port: what SampleRead draws, who writes the port, and which commands read it
(10_state.md R46, 20_memory.md R66, R67, 70_reset_and_hazards.md R211). -/

namespace Sys2Proof.Machine

/-! ## SampleRead (20_memory.md R67) -/

theorem State.mem_sampleValues {s : State} {i : Chan} {v : Half} :
    v ∈ s.sampleValues i ↔ v = s.heldSample i ∨ ∃ w ∈ s.window.writes, w.ch = i ∧ v = w.value := by
  simp only [State.sampleValues, List.mem_cons, List.mem_map, List.mem_filter, beq_iff_eq]
  refine or_congr_right (exists_congr fun w => ?_)
  rw [and_assoc, eq_comm (a := v)]

theorem State.sampleRead_mem (s : State) (i : Chan) : s.sampleRead i ∈ s.sampleValues i := by
  have hlt : s.window.draws[i] % (s.sampleValues i).length < (s.sampleValues i).length :=
    Nat.mod_lt _ (by simp [State.sampleValues])
  simp only [State.sampleRead]
  rw [List.getD_eq_getElem _ _ hlt]
  exact List.getElem_mem hlt

/-- A channel nobody writes in the window reads as it was held. -/
theorem State.sampleRead_of_not_written {s : State} {i : Chan} (h : ∀ w ∈ s.window.writes, w.ch ≠ i) :
    s.sampleRead i = s.heldSample i := by
  rcases State.mem_sampleValues.mp (s.sampleRead_mem i) with hheld | ⟨w, hw, hch, -⟩
  · exact hheld
  · exact absurd hch (h w hw)

/-- A draw below the number of values picks the value it names. -/
theorem State.sampleRead_of_draw (s : State) {draws : Vector Nat 8} {i : Chan}
    (h : draws[i] < (s.sampleValues i).length) :
    (s.openWindow ⟨s.window.writes, draws⟩).sampleRead i = (s.sampleValues i)[draws[i]] := by
  have hvalues : (s.openWindow ⟨s.window.writes, draws⟩).sampleValues i = s.sampleValues i := rfl
  simp only [State.sampleRead, hvalues]
  rw [State.openWindow_window, Nat.mod_eq_of_lt h, List.getD_eq_getElem _ _ h]

/-- Settles O22: SampleRead is one of `sampleValues`, and the draws can pick every one of them, each channel on its
own. -/
theorem sampleReadDrawsFromTheWindow : Obligations.SampleReadDrawsFromTheWindow := by
  refine fun s => ⟨fun i => State.mem_sampleValues.mp (s.sampleRead_mem i), fun i =>
    State.sampleRead_of_not_written, fun pick hpick => ?_⟩
  have hindex (i : Chan) : ∃ k, ∃ h : k < (s.sampleValues i).length, (s.sampleValues i)[k] = pick i :=
    List.getElem_of_mem (State.mem_sampleValues.mpr (hpick i))
  choose k hlt hk using hindex
  refine ⟨Vector.ofFn k, fun i => ?_⟩
  have hdraw : (Vector.ofFn k)[i] = k i := by simp
  rw [State.sampleRead_of_draw s (hdraw ▸ hlt i), ← hk i]
  simp only [hdraw]

/-! ## The writers of the port (20_memory.md R66) -/

/-- The Sample Source's writes that reach the port with an input. -/
def Input.sampleWrites : Input → List SampleWrite
  | .access _ w => w.writes
  | .sampleWrite w => [w]
  | .resetAssert | .resetRelease => []

/-- The Sample Source's writes that the next step delivers. -/
def State.delivered (s : State) : List SampleWrite := (s.pending.head?.map Input.sampleWrites).getD []

theorem State.delivered_of_pending {s : State} {x : Input} {rest : List Input} (h : s.pending = x :: rest) :
    s.delivered = x.sampleWrites := by simp [State.delivered, h]

/-- A host access leaves the port and the open window as they are. -/
theorem hostAccess_port {a : Access} {s u : State} (h : hostAccess a s = .next u) :
    u.sample = s.sample ∧ u.window = s.window := by
  obtain ⟨-, -, -, hcase⟩ := hostAccess_next h
  rcases hcase with ⟨r, -, -, rfl⟩ | ⟨v, i, -, -, -, rfl⟩ | ⟨v, e, -, -, -, rfl⟩ | ⟨v, r, -, -, -, rfl⟩
  · exact ⟨rfl, rfl⟩
  · obtain ⟨-, hsample, hwindow, -⟩ := onlyChanges_effect i { s with cmd := v }
    exact ⟨hsample, hwindow⟩
  · exact ⟨rfl, rfl⟩
  · exact ⟨s.writeReg_sample r v, s.writeReg_window r v⟩

theorem step_sample {s t : State} (h : step s = .next t) : t.sample = s.delivered.foldl writePort s.sample := by
  rcases step_next h with ⟨hp, rfl⟩ | ⟨a, w, rest, hp, -, rfl⟩ | ⟨a, w, rest, u, hp, -, hu, rfl⟩ |
    ⟨w, rest, hp, rfl⟩ | ⟨rest, hp, rfl⟩ | ⟨rest, hp, rfl⟩
  · simp [State.delivered, hp]
  · rw [State.delivered_of_pending hp]
    rfl
  · obtain ⟨hsample, hwindow⟩ := hostAccess_port hu
    rw [State.delivered_of_pending hp, State.closeWindow_sample, hsample, hwindow]
    rfl
  · rw [State.delivered_of_pending hp]
    rfl
  · rw [State.delivered_of_pending hp]
    rfl
  · rw [State.delivered_of_pending hp]
    split <;> rfl

/-- A channel after a step: the last delivered write to it, or what it held. -/
theorem step_sample_get {s t : State} (h : step s = .next t) (i : Chan) :
    t.sample[i] = (((s.delivered.filter (fun y => y.ch == i)).getLast?).map fun x => SampleCell.holds x.value).getD
      s.sample[i] := by
  rw [step_sample h, writePort_foldl_get]

/-- Settles O23: the port takes exactly the delivered writes, and each kind of input delivers its own. -/
theorem onlyTheSampleSourceWritesThePort : Obligations.OnlyTheSampleSourceWritesThePort := by
  intro s t i h
  have hget := step_sample_get h i
  have hsource {w : SampleWrite} {rest : List Input} (hp : s.pending = .sampleWrite w :: rest) (hch : w.ch = i) :
      t.sample[i] = .holds w.value := by
    rw [hget, State.delivered_of_pending hp]
    simp [Input.sampleWrites, hch]
  have hwindow {a : Access} {w : Window} {rest : List Input} {x : SampleWrite}
      (hp : s.pending = .access a w :: rest) (hx : (w.writes.filter (fun y => y.ch == i)).getLast? = some x) :
      t.sample[i] = .holds x.value := by
    rw [hget, State.delivered_of_pending hp, Input.sampleWrites, hx]
    rfl
  refine ⟨?_, fun w rest hp hch => hsource hp hch, fun a w rest x hp hx => hwindow hp hx⟩
  cases hlast : (s.delivered.filter (fun y => y.ch == i)).getLast? with
  | none => exact .inl (by rw [hget, hlast]; rfl)
  | some x =>
    rcases hp : s.pending with _ | ⟨⟨a, w⟩ | w | _ | _, rest⟩
    · simp [State.delivered, hp] at hlast
    · rw [State.delivered_of_pending hp] at hlast
      exact .inr (.inr ⟨a, w, rest, x, rfl, hlast, hwindow hp hlast⟩)
    · rw [State.delivered_of_pending hp] at hlast
      have hch : w.ch = i := by
        by_contra hne
        simp [Input.sampleWrites, hne] at hlast
      exact .inr (.inl ⟨w, rest, rfl, hch, hsource hp hch⟩)
    · simp [State.delivered, hp, Input.sampleWrites] at hlast
    · simp [State.delivered, hp, Input.sampleWrites] at hlast

/-! ## The commands that do not read the port (70_reset_and_hazards.md R211) -/

/-- `s` with another port, window and free counter. -/
def State.withPort (s : State) (p : Vector SampleCell 8) (w : Window) (n : Nat) : State :=
  { s with sample := p, window := w, freeCount := n }

theorem effect_withPort {i : Instr} (hnorm : ∀ ch, i ≠ .norm ch) (hest : i ≠ .est) (hloop : i ≠ .loop) (s : State)
    (p : Vector SampleCell 8) (w : Window) (n : Nat) :
    effect i (s.withPort p w n) = (effect i s).withPort p w n := by
  have hmap (c : F32) : (s.withPort p w n).mapDuty c = (s.mapDuty c).withPort p w n := by
    have hpair : (s.withPort p w n).legalPair = s.legalPair := rfl
    unfold State.mapDuty
    rw [hpair]
    split <;> rfl
  cases i with
  | norm ch => exact absurd rfl (hnorm ch)
  | est => exact absurd rfl hest
  | loop => exact absurd rfl hloop
  | map | mapi => exact hmap _
  | _ => rfl

/-- Settles O24: what these commands do commutes with replacing the port. -/
theorem otherCommandsIgnoreThePort : Obligations.OtherCommandsIgnoreThePort := fun i s hnorm hest hloop =>
  ⟨effect i s, fun p w n =>
    (exec_effect i (s.withPort p w n)).trans (congrArg _ (effect_withPort hnorm hest hloop s p w n))⟩

/-! ## Equal bounds (70_reset_and_hazards.md R206) -/

theorem flag_degen_of_status {s : State} {v : BitVec 4} (h : s.status = v ||| 0b1000#4) : s.flag .degen = true := by
  rw [State.flag, h]
  simp [Flag.bit]

theorem isDegenerate_ofWord_append (v : Half) : Claims.isDegenerate (Cal.ofWord (v ++ v)) := by
  have hmin : (Cal.ofWord (v ++ v)).min = v := BitVec.extractLsb'_append_eq_right
  have hmax : (Cal.ofWord (v ++ v)).max = v := BitVec.extractLsb'_append_eq_left
  rw [Claims.isDegenerate, hmin, hmax, sub_self]

/-- A degenerate channel normalizes every raw value to 5000 and raises DEGEN. -/
theorem State.normalizeTo_of_degenerate {s : State} {ch : Chan} (h : Claims.isDegenerate s.cal[ch]) (raw : Half) :
    (s.normalizeTo ch raw).normOut.toInt = 5000 ∧ (s.normalizeTo ch raw).flag .degen = true := by
  obtain ⟨hvalue, hstatus, -⟩ := s.normalizeTo_result ch raw
  exact ⟨hvalue.trans (if_pos h), flag_degen_of_status (hstatus h)⟩

/-- Settles O30: the write stores equal bounds, so RANGE is 0. -/
theorem equalBoundsMakeTheChannelDegenerate : Obligations.EqualBoundsMakeTheChannelDegenerate := by
  intro s i v
  refine ⟨_, memWrite_offset_of_ne_cmd (by simp) (v ++ v) s, fun cmd hcmd => ⟨_, exec_effect cmd _, ?_⟩⟩
  have hcal : (s.writeReg (.cal i) (v ++ v)).cal[i] = Cal.ofWord (v ++ v) := by simp
  have hdeg : Claims.isDegenerate (s.writeReg (.cal i) (v ++ v)).cal[i] := hcal ▸ isDegenerate_ofWord_append v
  rcases List.mem_pair.mp hcmd with rfl | rfl
  · exact State.normalizeTo_of_degenerate hdeg _
  · exact State.normalizeTo_of_degenerate hdeg _

end Sys2Proof.Machine

/-! PROOFS. LOOP, and LOOP against EST, PID and MAP (43_sequencing.md R161). -/

namespace Sys2Proof.Machine

/-- Settles O50: LOOP is `estimate`, `pidStep` and `mapDuty` in turn, each as its rule writes it out. -/
theorem loopResult : Obligations.LoopResult := by
  refine ⟨rfl, fun s => ?_⟩
  let a := s.estimate Config.weights
  let b := a.pidStep (Binary32.i2f a.offset.toInt) a.dtIn
  exact ⟨a, b, b.mapDuty b.correction, exec_effect .est s, a.controllerStep_pidStep _ _, b.mapStep_mapDuty _,
    exec_effect .loop s, s.onlyChanges_iteration _⟩

/-! ## States equal in every register but CMD -/

/-- `t` differs from `s` at most in CMD, the sample port and the fields around the registers. -/
def SameButCmd (s t : State) : Prop := SameRegisters { s with cmd := t.cmd } t

theorem sameButCmd_iff {s t : State} : SameButCmd s t ↔
    ∃ (c : Word) (p : Vector SampleCell 8) (b : Bool) (w : Window) (r : Response) (q : List Input) (n : Nat),
      t = { s with
        cmd := c, sample := p, inReset := b, window := w, response := r, pending := q, freeCount := n } := by
  refine ⟨fun h => ⟨t.cmd, t.sample, t.inReset, t.window, t.response, t.pending, t.freeCount, h⟩, ?_⟩
  rintro ⟨c, p, b, w, r, q, n, rfl⟩
  rfl

theorem SameButCmd.readReg {s t : State} (h : SameButCmd s t) {q : Reg} (hcmd : q ≠ .cmd)
    (hq : ∀ j, q ≠ .sample j) : t.readReg q = s.readReg q :=
  (SameRegisters.readReg h hq).trans (State.readReg_setCmd hcmd s t.cmd)

theorem SameButCmd.symm {s t : State} (h : SameButCmd s t) : SameButCmd t s := by
  obtain ⟨c, p, b, w, r, q, n, rfl⟩ := sameButCmd_iff.mp h
  rfl

theorem SameButCmd.trans {s t u : State} (hst : SameButCmd s t) (htu : SameButCmd t u) : SameButCmd s u := by
  obtain ⟨c, p, b, w, r, q, n, rfl⟩ := sameButCmd_iff.mp hst
  exact htu

/-- The controller step and the map read no more than the registers, so they carry the equality on. -/
theorem SameButCmd.effect_pid {s t : State} (h : SameButCmd s t) : SameButCmd (effect .pid s) (effect .pid t) := by
  obtain ⟨c, p, b, w, r, q, n, rfl⟩ := sameButCmd_iff.mp h
  rfl

theorem SameButCmd.effect_map {s t : State} (h : SameButCmd s t) : SameButCmd (effect .map s) (effect .map t) := by
  obtain ⟨c, p, b, w, r, q, n, rfl⟩ := sameButCmd_iff.mp h
  simp only [effect]
  cases hpair : s.legalPair with
  | true =>
    rw [State.mapDuty_legal s _ hpair, State.mapDuty_legal _ _ (by exact hpair)]
    rfl
  | false =>
    rw [State.mapDuty_illegal s _ hpair, State.mapDuty_illegal _ _ (by exact hpair)]
    rfl

/-- The estimator reads the port, so the samples it draws have to agree. -/
theorem SameButCmd.effect_est {s t : State} (h : SameButCmd s t) (hread : ∀ i, t.sampleRead i = s.sampleRead i) :
    SameButCmd (effect .est s) (effect .est t) := by
  have hcal : t.cal = s.cal := by
    rw [h]
  have hnorm : t.liveNorm = s.liveNorm := by
    funext i
    rw [State.liveNorm, State.liveNorm, hcal, hread]
  simp only [effect, State.estimate, hnorm]
  obtain ⟨cmd, p, b, win, r, q, n, rfl⟩ := sameButCmd_iff.mp h
  rfl

/-! ## A command as a step with no Sample Source write -/

/-- `s` when a CMD write of `i`'s word with window `w` begins. -/
def State.beforeCommand (s : State) (i : Instr) (w : Window) (rest : List Input) : State :=
  { s with pending := rest, window := w, cmd := encode i }

/-- `s` after that CMD write. -/
def State.afterCommand (s : State) (i : Instr) (w : Window) (rest : List Input) : State :=
  ((effect i (s.beforeCommand i w rest)).answer .done).closeWindow

theorem sameButCmd_beforeCommand (s : State) (i : Instr) (w : Window) (rest : List Input) :
    SameButCmd s (s.beforeCommand i w rest) := rfl

theorem sameButCmd_afterCommand (s : State) (i : Instr) (w : Window) (rest : List Input) :
    SameButCmd (effect i (s.beforeCommand i w rest)) (s.afterCommand i w rest) := rfl

/-- A command moves none of the fields around the registers, and a window without writes leaves the port. -/
theorem State.afterCommand_around (s : State) (i : Instr) (d : Vector Nat 8) (rest : List Input) :
    (s.afterCommand i ⟨[], d⟩ rest).sample = s.sample ∧ (s.afterCommand i ⟨[], d⟩ rest).inReset = s.inReset ∧
    (s.afterCommand i ⟨[], d⟩ rest).pending = rest := by
  obtain ⟨-, hsample, hwindow, hreset, hpending, -⟩ := onlyChanges_effect i (s.beforeCommand i ⟨[], d⟩ rest)
  refine ⟨?_, hreset, hpending⟩
  rw [State.afterCommand, State.closeWindow_sample, State.answer_window, hwindow, State.answer_sample, hsample]
  rfl

/-- Without a write in the window a channel reads as it was held, whatever the draws. -/
theorem State.sampleRead_beforeCommand (s : State) (i : Instr) (d : Vector Nat 8) (rest : List Input) (ch : Chan) :
    (s.beforeCommand i ⟨[], d⟩ rest).sampleRead ch = s.heldSample ch :=
  State.sampleRead_of_not_written (by simp [State.beforeCommand])

/-! ## LOOP and its three parts -/

/-- Without writes EST, PID and MAP as three commands leave what one LOOP leaves: nothing but the registers
carries over from one to the next. -/
theorem sameButCmd_loop_est_pid_map (s : State) (d1 d2 d3 d : Vector Nat 8) (r1 r2 r3 rest : List Input) :
    SameButCmd (s.afterCommand .loop ⟨[], d⟩ rest)
      (((s.afterCommand .est ⟨[], d1⟩ r1).afterCommand .pid ⟨[], d2⟩ r2).afterCommand .map ⟨[], d3⟩ r3) := by
  let s0 := s.beforeCommand .loop ⟨[], d⟩ rest
  let e := s.afterCommand .est ⟨[], d1⟩ r1
  let p := e.afterCommand .pid ⟨[], d2⟩ r2
  have hbefore : SameButCmd s0 (s.beforeCommand .est ⟨[], d1⟩ r1) := rfl
  have hread (ch : Chan) : (s.beforeCommand .est ⟨[], d1⟩ r1).sampleRead ch = s0.sampleRead ch := by
    rw [State.sampleRead_beforeCommand, State.sampleRead_beforeCommand]
  have hest : SameButCmd (effect .est s0) e :=
    (hbefore.effect_est hread).trans (sameButCmd_afterCommand s .est _ r1)
  have hpid : SameButCmd (effect .pid (effect .est s0)) p :=
    (hest.trans (sameButCmd_beforeCommand e .pid ⟨[], d2⟩ r2)).effect_pid.trans (sameButCmd_afterCommand e .pid _ r2)
  have hmap : SameButCmd (effect .map (effect .pid (effect .est s0))) (p.afterCommand .map ⟨[], d3⟩ r3) :=
    (hpid.trans (sameButCmd_beforeCommand p .map ⟨[], d3⟩ r3)).effect_map.trans (sameButCmd_afterCommand p .map _ r3)
  exact (sameButCmd_afterCommand s .loop ⟨[], d⟩ rest).symm.trans hmap

/-- Settles O51: the three steps and the one step end with the same port and inputs, and their registers are those
of the commands above. -/
theorem loopEqualsEstPidMap : Obligations.LoopEqualsEstPidMap := by
  intro s t3 t1 d1 d2 d3 d rest hreset hpending hrun hloop
  let r1 : List Input := .access (commandWrite 0x00000003#32) ⟨[], d2⟩ ::
    .access (commandWrite 0x00000004#32) ⟨[], d3⟩ :: rest
  let r2 : List Input := .access (commandWrite 0x00000004#32) ⟨[], d3⟩ :: rest
  let e := s.afterCommand .est ⟨[], d1⟩ r1
  let p := e.afterCommand .pid ⟨[], d2⟩ r2
  obtain ⟨hsample1, hreset1, hpending1⟩ := s.afterCommand_around .est d1 r1
  obtain ⟨hsample2, hreset2, hpending2⟩ := e.afterCommand_around .pid d2 r2
  obtain ⟨hsample3, -, hpending3⟩ := p.afterCommand_around .map d3 rest
  obtain ⟨hsample, -, hpending0⟩ := s.afterCommand_around .loop d rest
  have hest : step s = .next e := step_encode (i := .est) hreset hpending
  have hpid : step e = .next p := step_encode (i := .pid) (hreset1.trans hreset) hpending1
  have hmap : step p = .next (p.afterCommand .map ⟨[], d3⟩ rest) :=
    step_encode (i := .map) (hreset2.trans (hreset1.trans hreset)) hpending2
  rw [run_succ_of_step hest, run_succ_of_step hpid, run_succ_of_step hmap] at hrun
  obtain rfl : p.afterCommand .map ⟨[], d3⟩ rest = t3 := by injection hrun
  have hstep : _ = Host.Outcome.next (s.afterCommand .loop ⟨[], d⟩ rest) :=
    hloop.symm.trans (step_encode (i := .loop) hreset rfl)
  obtain rfl : t1 = s.afterCommand .loop ⟨[], d⟩ rest := by injection hstep
  refine ⟨?_, hpending0.trans hpending3.symm, fun r hcmd hr => ?_⟩
  · rw [hsample, hsample3, hsample2, hsample1]
  · exact ((sameButCmd_loop_est_pid_map s d1 d2 d3 d r1 r2 rest rest).readReg hcmd hr).symm

end Sys2Proof.Machine

/-! PROOFS. Binary32 arithmetic rounds the exact result to nearest, ties to even (00_scope.md R10). -/

namespace Sys2Proof.Machine.Binary32

/-! ## Neighbouring magnitudes -/

/-- The next magnitude lies one unit in the last place further on. -/
theorem units_succ (m : Nat) : units (m + 1) = units m + 2 ^ (m / 2 ^ 23 - 1) := by
  obtain ⟨k, f, rfl, hf, hk, hu⟩ := units_split m
  have hexp : (k * 2 ^ 23 + f) / 2 ^ 23 - 1 = k := by
    rcases Nat.eq_zero_or_pos k with rfl | hpos
    · omega
    · have := hk hpos.ne'
      omega
  rw [hexp, hu, Nat.add_assoc, units_of_split (by omega) (fun h => (hk h).trans (Nat.le_succ f)), Nat.succ_mul]

/-- From exponent `k` on, neighbours are at least 2^k apart. -/
theorem units_add_two_pow_le {k m m' : Nat} (hk : k = 0 ∨ (k + 1) * 2 ^ 23 ≤ m) (hlt : m < m') :
    units m + 2 ^ k ≤ units m' := by
  have hexp : k ≤ m / 2 ^ 23 - 1 := by omega
  calc units m + 2 ^ k ≤ units m + 2 ^ (m / 2 ^ 23 - 1) :=
        Nat.add_le_add_left (Nat.pow_le_pow_right Nat.two_pos hexp) _
    _ = units (m + 1) := (units_succ m).symm
    _ ≤ units m' := units_le_iff.mpr hlt

/-! ## Nearest points -/

/-- A point `r` is as near to `x` as `z` is, and nearer unless the two are one or `even` holds. -/
def Nearest (x r z : Int) (even : Prop) : Prop :=
  |r - x| ≤ |z - x| ∧ (|r - x| = |z - x| → z = r ∨ even)

theorem Nearest.refl (x r : Int) (even : Prop) : Nearest x r r even := ⟨le_rfl, fun _ => .inl rfl⟩

theorem Nearest.neg {x r z : Int} {even : Prop} (h : Nearest x r z even) : Nearest (-x) (-r) (-z) even := by
  have habs (y : Int) : |-y - -x| = |y - x| := by rw [← abs_neg]; congr 1; ring
  unfold Nearest
  rw [habs, habs, neg_inj]
  exact h

/-- A point a whole step above a point that errs by at most half a step. -/
theorem nearest_of_above {x r z step : Int} {even : Prop} (hz : r + step ≤ z) (hstep : 0 < step)
    (herr : 2 * x ≤ 2 * r + step) (htie : 2 * x = 2 * r + step → even) : Nearest x r z even := by
  have hr : r < z := by omega
  have hfar : |z - x| = z - x := abs_of_nonneg (by omega)
  unfold Nearest
  rw [hfar]
  rcases abs_cases (r - x) with ⟨hnear, -⟩ | ⟨hnear, -⟩ <;> rw [hnear]
  · exact ⟨by omega, fun h => absurd h (by omega)⟩
  · exact ⟨by omega, fun h => .inr (htie (by omega))⟩

/-- A point a whole step below. -/
theorem nearest_of_below {x r z step : Int} {even : Prop} (hz : z + step ≤ r) (hstep : 0 < step)
    (herr : 2 * r ≤ 2 * x + step) (htie : 2 * r = 2 * x + step → even) : Nearest x r z even := by
  have h := (nearest_of_above (x := -x) (r := -r) (z := -z) (by omega) hstep (by omega)
    (fun h => htie (by omega))).neg
  simpa only [neg_neg] using h

/-- A point on the far side of `y`, which is below `x`. -/
theorem Nearest.of_le {x r y z : Int} {even : Prop} (h : Nearest x r y even) (hz : z ≤ y) (hy : y ≤ x) :
    Nearest x r z even := by
  obtain ⟨hle, htie⟩ := h
  have hy' : |y - x| = x - y := by rw [abs_of_nonpos (by omega)]; omega
  have hz' : |z - x| = x - z := by rw [abs_of_nonpos (by omega)]; omega
  unfold Nearest
  rw [hz']
  rw [hy'] at hle htie
  refine ⟨by omega, fun heq => ?_⟩
  have hzy : z = y := by omega
  exact hzy ▸ htie (by omega)

/-! ## The rounded magnitude is the nearest one -/

section

variable (n : Nat) {d : Nat} (hd : 0 < d)

/-- The spacing of the magnitudes around the rounded one, over the denominator `d`. -/
def roundStep (n d : Nat) : Nat := d * 2 ^ excessBits (n / d)

include hd

theorem roundStep_pos : 0 < roundStep n d := Nat.mul_pos hd (Nat.two_pow_pos _)

theorem units_roundWide_mul :
    units (roundWide n d) * d = nearestEven n (roundStep n d) * roundStep n d := by
  rw [units_roundWide n hd, roundStep]
  ring

/-- Rounding errs by at most half a step. -/
theorem roundWide_error :
    2 * n ≤ 2 * (units (roundWide n d) * d) + roundStep n d ∧
      2 * (units (roundWide n d) * d) ≤ 2 * n + roundStep n d := by
  obtain ⟨hup, hdown⟩ := nearestEven_bounds n (roundStep_pos n hd)
  rw [units_roundWide_mul n hd]
  constructor <;> nlinarith

/-- Halfway, rounding gives an even magnitude. -/
theorem roundWide_tie
    (h : 2 * n = 2 * (units (roundWide n d) * d) + roundStep n d ∨
      2 * (units (roundWide n d) * d) = 2 * n + roundStep n d) : roundWide n d % 2 = 0 := by
  have heven : nearestEven n (roundStep n d) % 2 = 0 := by
    apply nearestEven_tie n (roundStep_pos n hd)
    rw [units_roundWide_mul n hd] at h
    rcases h with h | h
    · left; linarith
    · right; linarith
  rw [roundWide, ← roundStep]
  omega

theorem roundWide_gap_above {m : Nat} (hm : roundWide n d < m) :
    units (roundWide n d) * d + roundStep n d ≤ units m * d := by
  obtain ⟨-, hlow⟩ := significand_bounds n hd
  have hspace := units_add_two_pow_le (k := excessBits (n / d)) (m := roundWide n d) (by unfold roundWide; omega) hm
  rw [roundStep]
  nlinarith

/-- Below the rounded magnitude the spacing is the same, unless it is the least of its binade: then nothing was
rounded up to reach it. -/
theorem roundWide_gap_below {m : Nat} (hm : m < roundWide n d) :
    units m * d + roundStep n d ≤ units (roundWide n d) * d ∨ units (roundWide n d) * d ≤ n := by
  obtain ⟨-, hlow⟩ := significand_bounds n hd
  rw [← roundStep] at hlow
  by_cases hleast : excessBits (n / d) ≠ 0 ∧ nearestEven n (roundStep n d) = 2 ^ 23
  · obtain ⟨hk, hsig⟩ := hleast
    right
    calc units (roundWide n d) * d = 2 ^ (excessBits (n / d) + 23) * d := by
          rw [units_roundWide_mul n hd, hsig, roundStep, Nat.pow_add]
          ring
      _ ≤ n := (Nat.le_div_iff_mul_le hd).mp (excessBits_le hk)
  · left
    have hr : roundWide n d = excessBits (n / d) * 2 ^ 23 + nearestEven n (roundStep n d) := rfl
    have hspace : units (roundWide n d - 1) + 2 ^ excessBits (n / d) ≤ units (roundWide n d) :=
      units_add_two_pow_le (by omega) (by omega)
    have hm' : units m ≤ units (roundWide n d - 1) := units_le_iff.mpr (by omega)
    calc units m * d + roundStep n d = (units m + 2 ^ excessBits (n / d)) * d := by rw [roundStep]; ring
      _ ≤ units (roundWide n d) * d := Nat.mul_le_mul_right d (by omega)

theorem roundWide_nearest (m : Nat) :
    Nearest n (units (roundWide n d) * d : Nat) (units m * d : Nat) (roundWide n d % 2 = 0) := by
  obtain ⟨hup, hdown⟩ := roundWide_error n hd
  have htie := roundWide_tie n hd
  have hstep := roundStep_pos n hd
  rcases lt_trichotomy m (roundWide n d) with hlt | rfl | hgt
  · rcases roundWide_gap_below n hd hlt with hgap | hexact
    · exact nearest_of_below (step := roundStep n d) (by omega) (by omega) (by omega) (fun h => htie (.inr (by omega)))
    · have hle := Nat.mul_le_mul_right d (units_le_iff.mpr hlt.le)
      exact (Nearest.refl _ _ _).of_le (by omega) (by omega)
  · exact .refl _ _ _
  · have hgap := roundWide_gap_above n hd hgt
    exact nearest_of_above (step := roundStep n d) (by omega) (by omega) (by omega) (fun h => htie (.inl (by omega)))

end

/-! ## Overflow -/

/-- The midpoint between FLT_MAX and 2^128, in units of 2^-149. -/
def overflowPoint : Nat := (2 ^ 25 - 1) * 2 ^ 252

theorem units_around_overflowPoint :
    units (infMag - 1) + units infMag = 2 * overflowPoint ∧ units (infMag - 1) < overflowPoint := by decide

theorem infMag_le_roundWide {n d : Nat} (hd : 0 < d) (h : overflowPoint * d ≤ n) : infMag ≤ roundWide n d := by
  have htop : roundWide overflowPoint 1 = infMag := by decide
  rw [← htop]
  exact roundWide_mono Nat.one_pos hd (by omega)

/-- Below the midpoint FLT_MAX is nearer than 2^128. -/
theorem roundWide_lt_infMag {n d : Nat} (hd : 0 < d) (h : n < overflowPoint * d) : roundWide n d < infMag := by
  by_contra hge
  obtain ⟨hnear, -⟩ := roundWide_nearest n hd (infMag - 1)
  obtain ⟨hmid, hlow⟩ := units_around_overflowPoint
  have hbig : units infMag * d ≤ units (roundWide n d) * d :=
    Nat.mul_le_mul_right d (units_le_iff.mpr (not_lt.mp hge))
  have hsum : units (infMag - 1) * d + units infMag * d = 2 * (overflowPoint * d) := by
    rw [← Nat.add_mul, hmid, Nat.mul_assoc]
  have hbelow : units (infMag - 1) * d < overflowPoint * d := Nat.mul_lt_mul_of_pos_right hlow hd
  rw [abs_of_nonneg (by omega)] at hnear
  rcases abs_cases (((units (infMag - 1) * d : Nat) : Int) - n) with ⟨habs, -⟩ | ⟨habs, -⟩ <;> omega

/-! ## Signed values -/

theorem scaled_pack (neg : Bool) {m : Nat} (h : m < 2 ^ 31) :
    scaled (pack neg m) = if neg then -(units m : Int) else (units m : Int) := by
  rw [scaled, sign_pack neg h, mag_pack neg h]

/-- No signed value is nearer to `n / d` than the rounded magnitude: a negative one is behind zero. -/
theorem roundWide_nearest_scaled (n : Nat) {d : Nat} (hd : 0 < d) (z : F32) :
    Nearest n (units (roundWide n d) * d : Nat) (scaled z * d) (roundWide n d % 2 = 0) := by
  rw [scaled]
  split
  · refine (roundWide_nearest n hd 0).of_le ?_ (by simp)
    rw [units_zero, Nat.zero_mul, neg_mul, ← Nat.cast_mul]
    omega
  · exact_mod_cast roundWide_nearest n hd (mag z)

/-- The exact value `num / den`, its magnitude rounded and its sign kept, is the rounded value: at zero the sign is
free. -/
theorem roundsTo_pack {num : Int} {den : Nat} {neg : Bool} (hd : 0 < den)
    (hneg : num ≠ 0 → neg = decide (num < 0)) : Claims.RoundsTo num den (pack neg (roundMag num.natAbs den)) := by
  unfold Claims.RoundsTo
  split_ifs with hbig
  · have hmag : roundMag num.natAbs den = infMag := Nat.min_eq_right (infMag_le_roundWide hd hbig)
    have hne : num ≠ 0 := by
      rintro rfl
      have := Nat.mul_pos (by decide : 0 < overflowPoint) hd
      exact absurd hbig (Nat.not_le.mpr this)
    rw [hmag, isInf_iff, mag_pack _ (by decide), sign_pack _ (by decide)]
    exact ⟨rfl, hneg hne⟩
  · have hlt := roundWide_lt_infMag hd (not_le.mp hbig)
    have hmag : roundMag num.natAbs den = roundWide num.natAbs den := Nat.min_eq_left hlt.le
    have hlt' : roundWide num.natAbs den < 2 ^ 31 := hlt.trans (by decide)
    have hscaled : scaled (pack neg (roundWide num.natAbs den)) =
        if num < 0 then -(units (roundWide num.natAbs den) : Int) else units (roundWide num.natAbs den) := by
      rw [scaled_pack _ hlt']
      by_cases hnum : num = 0
      · subst hnum
        have hzero : roundWide 0 den = 0 := by simpa using roundWide_units 0 hd
        simp [hzero]
      · rw [hneg hnum]
        simp
    rw [hmag, isFinite_iff, mag_pack _ hlt']
    refine ⟨hlt, fun z _ => ?_⟩
    have hnearest : Nearest num (scaled (pack neg (roundWide num.natAbs den)) * den) (scaled z * den)
        (roundWide num.natAbs den % 2 = 0) := by
      rw [hscaled]
      split_ifs with hsign
      · have h := (roundWide_nearest_scaled num.natAbs hd (negate z)).neg
        have hnum : -(num.natAbs : Int) = num := by omega
        rw [hnum, scaled_negate, neg_mul, neg_neg, Nat.cast_mul] at h
        rwa [neg_mul]
      · have h := roundWide_nearest_scaled num.natAbs hd z
        have hnum : (num.natAbs : Int) = num := by omega
        simpa only [hnum, Nat.cast_mul] using h
    obtain ⟨hle, htie⟩ := hnearest
    refine ⟨hle, fun heq => (htie heq).imp_left fun h => ?_⟩
    exact Int.eq_of_mul_eq_mul_right (by omega) h

/-- The same with the sign and the magnitude given apart. -/
theorem roundsTo_signed (neg : Bool) (m : Nat) {den : Nat} (hd : 0 < den) :
    Claims.RoundsTo (if neg then -(m : Int) else m) den (pack neg (roundMag m den)) := by
  have habs : (if neg then -(m : Int) else m).natAbs = m := by cases neg <;> simp
  have h := roundsTo_pack (num := if neg then -(m : Int) else m) (neg := neg) hd fun hne => by
    cases neg <;> simp at hne ⊢
    omega
  rwa [habs] at h

/-! ## The five operations -/

theorem fadd_of_isFinite {a b : F32} (ha : isFinite a = true) (hb : isFinite b = true) :
    fadd a b = pack (if scaled a + scaled b = 0 then sign a && sign b else decide (scaled a + scaled b < 0))
      (roundMag (scaled a + scaled b).natAbs 1) := by
  simp only [fadd, isNaN_of_isFinite ha, isNaN_of_isFinite hb, isInf_of_isFinite ha, isInf_of_isFinite hb,
    Bool.or_self, Bool.false_eq_true, if_false]
  split_ifs with hzero
  · rw [hzero, Int.natAbs_zero, roundMag_zero Nat.one_pos]
  · rfl

theorem fdiv_of_isFinite {a b : F32} (ha : isFinite a = true) (hb : isFinite b = true) (hb0 : mag b ≠ 0) :
    fdiv a b = pack (sign a != sign b) (roundMag (units (mag a) * 2 ^ 149) (units (mag b))) := by
  simp [fdiv, isNaN_of_isFinite ha, isNaN_of_isFinite hb, isInf_of_isFinite ha, isInf_of_isFinite hb, hb0]

theorem roundsTo_fadd {a b : F32} (ha : isFinite a = true) (hb : isFinite b = true) :
    Claims.RoundsTo (scaled a + scaled b) 1 (fadd a b) := by
  rw [fadd_of_isFinite ha hb]
  exact roundsTo_pack Nat.one_pos fun h => if_neg h

theorem roundsTo_fsub {a b : F32} (ha : isFinite a = true) (hb : isFinite b = true) :
    Claims.RoundsTo (scaled a - scaled b) 1 (fsub a b) := by
  rw [sub_eq_add_neg, ← scaled_negate]
  exact roundsTo_fadd ha ((isFinite_negate b).trans hb)

theorem roundsTo_fmul {a b : F32} (ha : isFinite a = true) (hb : isFinite b = true) :
    Claims.RoundsTo (scaled a * scaled b) (2 ^ 149) (fmul a b) := by
  have hexact : scaled a * scaled b = if sign a != sign b then -((units (mag a) * units (mag b) : Nat) : Int)
      else (units (mag a) * units (mag b) : Nat) := by
    unfold scaled
    cases sign a <;> cases sign b <;> simp
  rw [fmul_of_isFinite ha hb, hexact]
  exact roundsTo_signed _ _ (by positivity)

theorem roundsTo_fdiv {a b : F32} (ha : isFinite a = true) (hb : isFinite b = true) (hb0 : mag b ≠ 0) :
    Claims.RoundsTo (scaled a * 2 ^ 149 * (if sign b then -1 else 1)) (units (mag b)) (fdiv a b) := by
  have hexact : scaled a * 2 ^ 149 * (if sign b then -1 else 1) =
      if sign a != sign b then -((units (mag a) * 2 ^ 149 : Nat) : Int) else (units (mag a) * 2 ^ 149 : Nat) := by
    unfold scaled
    cases sign a <;> cases sign b <;> simp
  rw [fdiv_of_isFinite ha hb hb0, hexact]
  exact roundsTo_signed _ _ (Nat.pos_of_ne_zero (mt units_eq_zero.mp hb0))

theorem roundsTo_i2f (n : Int) : Claims.RoundsTo (n * 2 ^ 149) 1 (i2f n) := by
  have hexact : n * 2 ^ 149 = if decide (n < 0) then -((n.natAbs * 2 ^ 149 : Nat) : Int)
      else (n.natAbs * 2 ^ 149 : Nat) := by
    by_cases hn : n < 0 <;> simp only [hn, decide_true, decide_false, Bool.false_eq_true, if_true, if_false] <;> omega
  rw [i2f, hexact]
  exact roundsTo_signed _ _ Nat.one_pos

/-- Settles O40: each operation rounds the magnitude of its exact result. -/
theorem arithmeticRoundsToNearestEven : Obligations.ArithmeticRoundsToNearestEven :=
  ⟨fun _ _ ha hb => ⟨roundsTo_fadd ha hb, roundsTo_fsub ha hb, roundsTo_fmul ha hb, roundsTo_fdiv ha hb⟩, roundsTo_i2f⟩

end Sys2Proof.Machine.Binary32

/-! PROOFS. Binary32 patterns, comparisons, and the operations on NaNs, infinities and zeros (00_scope.md R10,
10_state.md R50). -/

namespace Sys2Proof.Machine.Binary32

/-! ## What a pattern stands for (10_state.md R50) -/

/-- The magnitude bits are the exponent and the fraction. -/
theorem mag_eq_fields (x : F32) :
    mag x = (x.extractLsb' 23 8).toNat * 2 ^ 23 + (x.extractLsb' 0 23).toNat := by
  have hlt := x.isLt
  simp only [mag, BitVec.extractLsb'_toNat, Nat.shiftRight_eq_div_pow]
  omega

/-- The value of a magnitude by its exponent field: subnormal for 0, with the hidden bit otherwise. -/
theorem units_of_fields (e : Nat) {f : Nat} (hf : f < 2 ^ 23) :
    units (e * 2 ^ 23 + f) = if e = 0 then f else (2 ^ 23 + f) * 2 ^ (e - 1) := by
  split_ifs with he
  · subst he
    simpa using units_of_split (k := 0) (f := f) (by omega) (by simp)
  · have hm : e * 2 ^ 23 + f = (e - 1) * 2 ^ 23 + (2 ^ 23 + f) := by omega
    rw [hm, units_of_split (by omega) (by omega)]

/-- Settles O56: the classes and the value are read off the exponent and the fraction. -/
theorem patternsDenoteBinary32Values : Obligations.PatternsDenoteBinary32Values := by
  intro x
  have hmag := mag_eq_fields x
  have he := (x.extractLsb' 23 8).isLt
  have hf := (x.extractLsb' 0 23).isLt
  have hinf : infMag = 255 * 2 ^ 23 := by decide
  refine ⟨?_, ?_, ?_, rfl, ?_, fun _ => ?_⟩
  · rw [isNaN_iff]; omega
  · rw [isInf_iff]; omega
  · rw [isFinite_iff]; omega
  · omega
  · rw [scaled, hmag, units_of_fields _ hf]
    rfl

/-- Settles O57: the law of `f2iTrunc` is the statement's own formula. -/
theorem truncationRoundsTowardZero : Obligations.TruncationRoundsTowardZero := fun x _ => f2iTrunc_eq x

/-! ## Comparisons -/

theorem flt_of_isNaN {a b : F32} (h : isNaN a = true ∨ isNaN b = true) : flt a b = false := by
  rcases h with h | h <;> simp [flt, h]

theorem flt_iff_scaled_lt {a b : F32} (ha : isNaN a = false) (hb : isNaN b = false) :
    flt a b = true ↔ scaled a < scaled b := by
  rw [flt_iff, orderKey_lt_iff]
  exact ⟨fun h => h.2.2, fun h => ⟨ha, hb, h⟩⟩

/-- Settles O42: the comparisons are by `orderKey`, which the infinities bound. -/
theorem comparisonsOrderByValue : Obligations.ComparisonsOrderByValue := by
  intro a b
  refine ⟨?_, flt_of_isNaN, fun ha hb => flt_iff_scaled_lt (isNaN_of_isFinite ha) (isNaN_of_isFinite hb),
    fun ha => ?_, by decide, ?_⟩
  · rw [fgt, flt, Bool.and_comm (!isNaN a)]
  · obtain ⟨hlo, hhi⟩ := isFinite_iff_key.mp ha
    exact ⟨flt_iff.mpr ⟨isNaN_of_isFinite ha, by decide, hhi⟩, flt_iff.mpr ⟨by decide, isNaN_of_isFinite ha, hlo⟩⟩
  · simp [flt]

/-! ## NaN results (41_pid.md R130) -/

/-- The canonical NaN, or no NaN at all. -/
def CanonicalOrNumber (x : F32) : Prop := x = Config.canonicalNaN ∨ isNaN x = false

theorem isNaN_pack_of_le (neg : Bool) {m : Nat} (h : m ≤ infMag) : isNaN (pack neg m) = false := by
  rw [isNaN, mag_pack neg (h.trans_lt (by decide))]
  exact decide_eq_false (Nat.not_lt.mpr h)

theorem canonicalOrNumber_pack (neg : Bool) {m : Nat} (h : m ≤ infMag) : CanonicalOrNumber (pack neg m) :=
  .inr (isNaN_pack_of_le neg h)

theorem fadd_of_isNaN {a b : F32} (h : isNaN a = true ∨ isNaN b = true) : fadd a b = Config.canonicalNaN := by
  rcases h with h | h <;> simp [fadd, h]

theorem fmul_of_isNaN {a b : F32} (h : isNaN a = true ∨ isNaN b = true) : fmul a b = Config.canonicalNaN := by
  rcases h with h | h <;> simp [fmul, h]

theorem fdiv_of_isNaN {a b : F32} (h : isNaN a = true ∨ isNaN b = true) : fdiv a b = Config.canonicalNaN := by
  rcases h with h | h <;> simp [fdiv, h]

theorem fsub_of_isNaN {a b : F32} (h : isNaN a = true ∨ isNaN b = true) : fsub a b = Config.canonicalNaN :=
  fadd_of_isNaN (by rwa [isNaN_negate])

/-- The sum of two numbers is an operand, a packed magnitude, or the NaN of two opposite infinities. -/
theorem canonicalOrNumber_fadd (a b : F32) : CanonicalOrNumber (fadd a b) := by
  by_cases hnan : isNaN a = true ∨ isNaN b = true
  · exact .inl (fadd_of_isNaN hnan)
  · obtain ⟨ha, hb⟩ : isNaN a = false ∧ isNaN b = false := by simpa using hnan
    simp only [fadd, ha, hb, Bool.or_self, Bool.false_eq_true, if_false]
    split_ifs
    · exact .inl rfl
    · exact .inr ha
    · exact .inr hb
    · exact canonicalOrNumber_pack _ (Nat.zero_le _)
    · exact canonicalOrNumber_pack _ (roundMag_le _ _)

theorem canonicalOrNumber_fmul (a b : F32) : CanonicalOrNumber (fmul a b) := by
  simp only [fmul]
  split_ifs
  · exact .inl rfl
  · exact .inl rfl
  · exact canonicalOrNumber_pack _ le_rfl
  · exact canonicalOrNumber_pack _ (roundMag_le _ _)

theorem canonicalOrNumber_fdiv (a b : F32) : CanonicalOrNumber (fdiv a b) := by
  simp only [fdiv]
  split_ifs
  · exact .inl rfl
  · exact .inl rfl
  · exact canonicalOrNumber_pack _ le_rfl
  · exact canonicalOrNumber_pack _ (Nat.zero_le _)
  · exact .inl rfl
  · exact canonicalOrNumber_pack _ le_rfl
  · exact canonicalOrNumber_pack _ (roundMag_le _ _)

theorem CanonicalOrNumber.eq_of_isNaN {x : F32} (h : CanonicalOrNumber x) (hnan : isNaN x = true) :
    x = Config.canonicalNaN :=
  h.resolve_right (by simp [hnan])

/-- Settles O41: every branch of an operation is the canonical NaN or a packed magnitude up to infinity. -/
theorem arithmeticNaNIsCanonical : Obligations.ArithmeticNaNIsCanonical := fun a b =>
  ⟨(canonicalOrNumber_fadd a b).eq_of_isNaN, (canonicalOrNumber_fadd a (negate b)).eq_of_isNaN,
    (canonicalOrNumber_fmul a b).eq_of_isNaN, (canonicalOrNumber_fdiv a b).eq_of_isNaN,
    fun h => ⟨fadd_of_isNaN h, fsub_of_isNaN h, fmul_of_isNaN h, fdiv_of_isNaN h⟩⟩

/-! ## Infinite operands and zeros -/

theorem isNaN_of_isInf {x : F32} (h : isInf x = true) : isNaN x = false := by simp [isNaN, isInf_iff.mp h]

theorem isFinite_of_mag_eq_zero {x : F32} (h : mag x = 0) : isFinite x = true := by
  rw [isFinite_iff, h]
  decide

theorem isInf_pack_and_sign (neg : Bool) : isInf (pack neg infMag) = true ∧ sign (pack neg infMag) = neg :=
  ⟨isInf_iff.mpr (mag_pack neg (by decide)), sign_pack neg (by decide)⟩

theorem mag_pack_zero_and_sign (neg : Bool) : mag (pack neg 0) = 0 ∧ sign (pack neg 0) = neg :=
  ⟨mag_pack neg (by decide), sign_pack neg (by decide)⟩

theorem fadd_inf_left {a b : F32} (ha : isInf a = true) (hb : isFinite b = true) : fadd a b = a := by
  simp [fadd, ha, isNaN_of_isInf ha, isNaN_of_isFinite hb, isInf_of_isFinite hb]

theorem fsub_inf_left {a b : F32} (ha : isInf a = true) (hb : isFinite b = true) : fsub a b = a :=
  fadd_inf_left ha ((isFinite_negate b).trans hb)

theorem fsub_inf {a b : F32} (ha : isInf a = true) (hb : isFinite b = true) : fsub b a = negate a :=
  fadd_inf hb ((isInf_negate a).trans ha)

theorem fadd_inf_inf {a b : F32} (ha : isInf a = true) (hb : isInf b = true) :
    fadd a b = if sign a = sign b then a else Config.canonicalNaN := by
  simp only [fadd, ha, hb, isNaN_of_isInf ha, isNaN_of_isInf hb]
  by_cases hs : sign a = sign b <;> simp [hs]

theorem fsub_inf_inf {a b : F32} (ha : isInf a = true) (hb : isInf b = true) :
    fsub a b = if sign a = sign b then Config.canonicalNaN else a := by
  rw [fsub, fadd_inf_inf ha ((isInf_negate b).trans hb), sign_negate]
  cases sign a <;> cases sign b <;> rfl

theorem fdiv_inf_left {a b : F32} (ha : isInf a = true) (hb : isFinite b = true) :
    fdiv a b = pack (sign a != sign b) infMag := by
  simp [fdiv, ha, isNaN_of_isInf ha, isNaN_of_isFinite hb, isInf_of_isFinite hb]

theorem fdiv_inf {a b : F32} (ha : isInf a = true) (hb : isFinite b = true) :
    fdiv b a = pack (sign b != sign a) 0 := by
  simp [fdiv, ha, isNaN_of_isInf ha, isNaN_of_isFinite hb, isInf_of_isFinite hb]

theorem fdiv_inf_inf {a b : F32} (ha : isInf a = true) (hb : isInf b = true) :
    fdiv a b = Config.canonicalNaN := by
  simp [fdiv, ha, hb]

theorem fdiv_zero {a b : F32} (ha : isFinite a = true) (hb : mag b = 0) :
    fdiv a b = if mag a = 0 then Config.canonicalNaN else pack (sign a != sign b) infMag := by
  have hb' := isFinite_of_mag_eq_zero hb
  simp [fdiv, isNaN_of_isFinite ha, isNaN_of_isFinite hb', isInf_of_isFinite ha, isInf_of_isFinite hb', hb]

theorem fmul_inf_left {a b : F32} (ha : isInf a = true) (hb : isNaN b = false) :
    fmul a b = if mag b = 0 then Config.canonicalNaN else pack (sign a != sign b) infMag := by
  have ha0 : mag a ≠ 0 := by rw [isInf_iff.mp ha]; decide
  simp [fmul, ha, isNaN_of_isInf ha, hb, ha0]

theorem fmul_comm (a b : F32) : fmul a b = fmul b a := by
  simp only [fmul, bne_comm (a := sign a), Bool.or_comm (isNaN a), Bool.or_comm (isInf a), or_comm (a := mag a = 0),
    Nat.mul_comm (units (mag a))]

theorem fadd_of_sum_eq_zero {a b : F32} (ha : isFinite a = true) (hb : isFinite b = true)
    (h : scaled a + scaled b = 0) : fadd a b = pack (sign a && sign b) 0 := by
  rw [fadd_of_isFinite ha hb, if_pos h, h, Int.natAbs_zero, roundMag_zero Nat.one_pos]

/-- Settles O58: each clause is the branch of its operation. -/
theorem infiniteOperandsFollowIeee : Obligations.InfiniteOperandsFollowIeee := by
  intro a b
  refine ⟨fun ha hb => ⟨fadd_inf_left ha hb, fadd_inf hb ha, fsub_inf_left ha hb, ?_⟩, fun ha hb => ?_,
    fun ha hb hb0 => ?_, fun ha hb => ?_, fun ha ha0 hb => ?_, fun ha hb => ?_, fun ha hb => ?_⟩
  · rw [fsub_inf ha hb, fdiv_inf_left ha hb, fdiv_inf ha hb, isInf_negate, sign_negate]
    obtain ⟨hinf, hsign⟩ := isInf_pack_and_sign (sign a != sign b)
    exact ⟨ha, rfl, hinf, hsign, mag_pack_zero_and_sign _⟩
  · rw [fadd_inf_inf ha hb, fsub_inf_inf ha hb]
    exact ⟨fdiv_inf_inf ha hb, fun hs => ⟨if_pos hs, if_pos hs⟩, fun hs => ⟨if_neg hs, if_neg hs⟩⟩
  · rw [fmul_comm b a, fmul_inf_left ha hb, if_neg hb0]
    obtain ⟨hinf, hsign⟩ := isInf_pack_and_sign (sign a != sign b)
    exact ⟨hinf, hsign, rfl⟩
  · rw [fmul_comm b a, fmul_inf_left ha (isNaN_of_isFinite (isFinite_of_mag_eq_zero hb)), if_pos hb]
    exact ⟨rfl, rfl⟩
  · rw [fdiv_zero ha hb, if_neg ha0]
    exact isInf_pack_and_sign _
  · rw [fdiv_zero (isFinite_of_mag_eq_zero ha) hb, if_pos ha]
    rfl
  · refine ⟨sign_fmul ha hb, fun hb0 => ?_, fun hsum => ?_⟩
    · rw [fdiv_of_isFinite ha hb hb0, sign_pack _ (roundMag_lt _ _)]
    · rw [fadd_of_sum_eq_zero ha hb hsum]
      cases sign a && sign b <;> rfl

end Sys2Proof.Machine.Binary32

/-! PROOFS. The controller at the edges: the one-sided clamp, a stuck integral, a zero error (41_pid.md R122,
R129, R132). -/

namespace Sys2Proof.Machine

open Binary32

/-! ## The clamp of the integral (41_pid.md R122) -/

theorem nextIntegral_of_fgt {integral e dt : F32}
    (h : fgt (fadd integral (fmul e dt)) Config.maxIntegral = true) :
    nextIntegral integral e dt = Config.maxIntegral := if_pos h

/-- A sum that is not above the ceiling passes unchanged. -/
theorem nextIntegral_of_not_fgt {integral e dt : F32}
    (h : fgt (fadd integral (fmul e dt)) Config.maxIntegral = false) :
    nextIntegral integral e dt = fadd integral (fmul e dt) := by simp [nextIntegral, h]

theorem fgt_maxIntegral_of_isNaN {x : F32} (h : isNaN x = true) : fgt x Config.maxIntegral = false := by
  simp [fgt, h]

/-- A value that is not positive is below the ceiling. -/
theorem fgt_maxIntegral_of_nonpos {x : F32} (h : orderKey x ≤ 0) : fgt x Config.maxIntegral = false := by
  have hmax : orderKey Config.maxIntegral = 0x5F7FFFFF := by decide
  rw [← Bool.not_eq_true, fgt_iff, hmax]
  omega

theorem orderKey_nonpos_of_sign {x : F32} (h : sign x = true) : orderKey x ≤ 0 := by
  rw [orderKey, if_pos h]
  omega

/-- A NaN sum is the new integral. -/
theorem nextIntegral_of_isNaN {integral e dt : F32} (h : isNaN (fadd integral (fmul e dt)) = true) :
    nextIntegral integral e dt = Config.canonicalNaN := by
  rw [nextIntegral_of_not_fgt (fgt_maxIntegral_of_isNaN h)]
  exact (canonicalOrNumber_fadd _ _).eq_of_isNaN h

/-- A sum with the sign set is the new integral: there is no floor. -/
theorem nextIntegral_of_sign {integral e dt : F32} (h : sign (fadd integral (fmul e dt)) = true) :
    nextIntegral integral e dt = fadd integral (fmul e dt) :=
  nextIntegral_of_not_fgt (fgt_maxIntegral_of_nonpos (orderKey_nonpos_of_sign h))

theorem nextIntegral_of_neg_inf {integral e dt : F32} (h : fadd integral (fmul e dt) = 0xFF800000#32) :
    nextIntegral integral e dt = 0xFF800000#32 :=
  (nextIntegral_of_sign (h ▸ by decide)).trans h

/-- Settles O34: only a sum above MAX_INTEGRAL is changed. -/
theorem integralClampIsOneSided : Obligations.IntegralClampIsOneSided := fun integral e dt =>
  ⟨fun h => nextIntegral_of_fgt (h ▸ by decide), nextIntegral_of_neg_inf, nextIntegral_of_isNaN,
    nextIntegral_of_sign, fgt_nextIntegral integral e dt⟩

/-! ## A stuck integral (41_pid.md R129) -/

/-- Only +∞ and a NaN move −∞. -/
theorem fadd_neg_inf {x : F32} (hnan : isNaN x = false) (hx : x ≠ 0x7F800000#32) :
    fadd 0xFF800000#32 x = 0xFF800000#32 := by
  rcases finite_or_inf_or_nan x with ⟨hfin, -, -⟩ | ⟨-, hinf, -⟩ | ⟨-, -, h⟩
  · exact fadd_inf_left (by decide) hfin
  · rw [fadd_inf_inf (by decide) hinf]
    refine if_pos ?_
    by_contra hs
    refine hx (eq_of_sign_mag ?_ (isInf_iff.mp hinf))
    have hneg : sign 0xFF800000#32 = true := by decide
    have hpos : sign 0x7F800000#32 = false := by decide
    rw [hneg] at hs
    rw [hpos]
    simpa using hs
  · rw [hnan] at h
    cases h

theorem isFinite_clampDt {x : F32} (h : isFinite x = true) : isFinite (clampDt x) = true := by
  rw [clampDt]
  split
  · exact h
  · decide

/-- Settles O35: the sum of R122 is NaN with a NaN integral, and −∞ with −∞ but for the products excluded. -/
theorem stuckIntegralStaysStuck : Obligations.StuckIntegralStaysStuck := by
  intro s t i e hstep ht
  obtain ⟨hnext, -, -⟩ := results_of_stepsController hstep ht
  have hinf (hint : s.integral = 0xFF800000#32) (hnan : isNaN (fmul e (clampDt s.dtIn)) = false)
      (hpos : fmul e (clampDt s.dtIn) ≠ 0x7F800000#32) : t.integral = 0xFF800000#32 := by
    rw [hnext]
    exact nextIntegral_of_neg_inf (hint ▸ fadd_neg_inf hnan hpos)
  refine ⟨fun hnan => ?_, hinf, fun hint he hdt => hinf hint (isNaN_fmul he (isFinite_clampDt hdt))⟩
  have hsum : isNaN (fadd s.integral (fmul e (clampDt s.dtIn))) = true := by
    rw [fadd_of_isNaN (.inl hnan)]
    decide
  rw [hnext, nextIntegral_of_isNaN hsum]
  decide

/-! ## Zeros (41_pid.md R132) -/

theorem mag_fmul_of_zero {a b : F32} (ha : isFinite a = true) (hb : isFinite b = true) (h : mag a = 0 ∨ mag b = 0) :
    mag (fmul a b) = 0 := by
  have hprod : units (mag a) * units (mag b) = 0 := by rcases h with h | h <;> simp [h]
  rw [fmul_of_isFinite ha hb, mag_pack _ (roundMag_lt _ _), hprod, roundMag_zero (by positivity)]

theorem scaled_eq_zero {a : F32} (h : mag a = 0) : scaled a = 0 := by simp [scaled, h]

theorem mag_fadd_of_zero {a b : F32} (ha : mag a = 0) (hb : mag b = 0) : mag (fadd a b) = 0 := by
  have hsum : scaled a + scaled b = 0 := by rw [scaled_eq_zero ha, scaled_eq_zero hb, add_zero]
  rw [fadd_of_sum_eq_zero (isFinite_of_mag_eq_zero ha) (isFinite_of_mag_eq_zero hb) hsum]
  exact mag_pack _ (by decide)

theorem mag_fsub_of_zero {a b : F32} (ha : mag a = 0) (hb : mag b = 0) : mag (fsub a b) = 0 :=
  mag_fadd_of_zero ha ((mag_negate b).trans hb)

theorem mag_fdiv_of_zero {a b : F32} (ha : mag a = 0) (hb : isFinite b = true) (hb0 : mag b ≠ 0) :
    mag (fdiv a b) = 0 := by
  rw [fdiv_of_isFinite (isFinite_of_mag_eq_zero ha) hb hb0, mag_pack _ (roundMag_lt _ _), ha, units_zero, Nat.zero_mul]
  exact roundMag_zero (Nat.pos_of_ne_zero (mt units_eq_zero.mp hb0))

/-- Adding a zero keeps the value. -/
theorem orderKey_fadd_zero {z x : F32} (hz : mag z = 0) (hx : isNaN x = false) :
    isNaN (fadd z x) = false ∧ orderKey (fadd z x) = orderKey x := by
  have hzf := isFinite_of_mag_eq_zero hz
  rcases finite_or_inf_or_nan x with ⟨hfin, -, -⟩ | ⟨-, hinf, -⟩ | ⟨-, -, h⟩
  · obtain ⟨hkey, hnan⟩ := orderKey_fadd hzf hfin
    rw [scaled_eq_zero hz, zero_add, roundKey_scaled (isFinite_iff.mp hfin).le] at hkey
    exact ⟨hnan, hkey⟩
  · rw [fadd_inf hzf hinf]
    exact ⟨hx, rfl⟩
  · rw [hx] at h
    cases h

theorem mag_nextIntegral_of_zero {integral e dt : F32} (hint : mag integral = 0) (he : mag e = 0)
    (hdt : isFinite dt = true) : mag (nextIntegral integral e dt) = 0 := by
  have hsum : mag (fadd integral (fmul e dt)) = 0 :=
    mag_fadd_of_zero hint (mag_fmul_of_zero (isFinite_of_mag_eq_zero he) hdt (.inl he))
  rwa [nextIntegral_of_not_fgt (fgt_maxIntegral_of_nonpos (by simp [orderKey, hsum]))]

/-- Settles O37: the first two terms of the correction are zeros, so the correction is the third. -/
theorem zeroErrorLeavesTheIntegralAtZero : Obligations.ZeroErrorLeavesTheIntegralAtZero := by
  intro s t i e hstep ht he hint hkp hki hkd hdt
  obtain ⟨hnext, hprev, hcorr⟩ := results_of_stepsController hstep ht
  have hint' : mag t.integral = 0 := hnext ▸ mag_nextIntegral_of_zero hint he hdt
  have hterms : mag (fadd (fmul s.kp e) (fmul s.ki t.integral)) = 0 :=
    mag_fadd_of_zero (mag_fmul_of_zero hkp (isFinite_of_mag_eq_zero he) (.inr he))
      (mag_fmul_of_zero hki (isFinite_of_mag_eq_zero hint') (.inr hint'))
  refine ⟨hint', hprev, fun hnan => ?_, fun hnan => ?_, fun hprev0 => ?_⟩
  · rw [hcorr, correctionOf, derivative, fadd_of_isNaN (.inr hnan)]
    decide
  · rw [hcorr]
    exact orderKey_fadd_zero hterms hnan
  · have hdt0 : mag (clampDt s.dtIn) ≠ 0 := by
      have := (clampDt_positive s.dtIn).2.2
      omega
    have hkick : mag (derivative s.prevError e (clampDt s.dtIn)) = 0 :=
      mag_fdiv_of_zero (mag_fsub_of_zero he hprev0) hdt hdt0
    rw [hcorr]
    exact mag_fadd_of_zero hterms (mag_fmul_of_zero hkd (isFinite_of_mag_eq_zero hkick) (.inr hkick))

end Sys2Proof.Machine

/-! PROOFS. Steering: a correction of one sign raises one side (42_actuation.md R146). -/

namespace Sys2Proof.Machine

open Binary32

/-! ## Adding and subtracting a correction -/

/-- Adding a value that is not negative, +∞ included, never gives less. -/
theorem orderKey_le_fadd {a b : F32} (ha : isFinite a = true) (hb : isNaN b = false) (hpos : 0 ≤ orderKey b) :
    orderKey a ≤ orderKey (fadd a b) ∧ isNaN (fadd a b) = false := by
  cases hs : sign b with
  | false => exact orderKey_le_fadd_of_nonneg ha hb hs
  | true =>
    have hb0 : mag b = 0 := by
      rw [orderKey, if_pos hs] at hpos
      omega
    obtain ⟨hkey, hnan⟩ := orderKey_fadd ha (isFinite_of_mag_eq_zero hb0)
    rw [scaled_eq_zero hb0, add_zero, roundKey_scaled (isFinite_iff.mp ha).le] at hkey
    exact ⟨hkey.ge, hnan⟩

/-- Adding a value that is not positive, −∞ included, never gives more. -/
theorem orderKey_fadd_le {a b : F32} (ha : isFinite a = true) (hb : isNaN b = false) (hneg : orderKey b ≤ 0) :
    orderKey (fadd a b) ≤ orderKey a ∧ isNaN (fadd a b) = false := by
  rcases finite_or_inf_or_nan b with ⟨hfin, -, -⟩ | ⟨-, hinf, -⟩ | ⟨-, -, h⟩
  · obtain ⟨hkey, hnan⟩ := orderKey_fadd ha hfin
    have hb0 : scaled b ≤ scaled 0x00000000#32 := orderKey_le_iff.mp hneg
    have hzero : scaled 0x00000000#32 = 0 := by decide
    rw [hkey, ← roundKey_scaled (isFinite_iff.mp ha).le]
    exact ⟨roundKey_mono Nat.one_pos Nat.one_pos (by omega), hnan⟩
  · have hmag := orderKey_natAbs b
    rw [isInf_iff.mp hinf] at hmag
    have hlow := (isFinite_iff_key.mp ha).1
    rw [fadd_inf ha hinf]
    exact ⟨by omega, hb⟩
  · rw [hb] at h
    cases h

/-! ## The clamp on either side of its lower bound -/

/-- A value not above the lower bound is clamped to it. -/
theorem orderKey_clampF_of_le {v lo hi : F32} (hv : isNaN v = false) (hlo : isNaN lo = false)
    (hle : orderKey v ≤ orderKey lo) (hbounds : orderKey lo ≤ orderKey hi) :
    orderKey (clampF v lo hi) = orderKey lo := by
  have hnot : ¬ orderKey hi < orderKey v := by omega
  by_cases hlt : orderKey v < orderKey lo
  · simp [clampF, hv, flt_iff.mpr ⟨hv, hlo, hlt⟩]
  · have hkept : clampF v lo hi = v := by simp [clampF, hv, flt_iff, fgt_iff, hlt, hnot]
    rw [hkept]
    omega

/-- A value not below the lower bound is only cut at the upper one. -/
theorem clampF_of_ge {v lo hi : F32} (hv : isNaN v = false) (hge : orderKey lo ≤ orderKey v) :
    clampF v lo hi = if fgt v hi then hi else v := by
  simp [clampF, hv, flt_iff, not_lt.mpr hge]

theorem f2iTrunc_congr {x y : F32} (h : orderKey x = orderKey y) : f2iTrunc x = f2iTrunc y := by
  rw [f2iTrunc_eq, f2iTrunc_eq, orderKey_eq_iff.mp h]

theorem isFinite_i2f_half (x : Half) : isFinite (i2f x.toInt) = true := isFinite_i2f (natAbs_toInt_half_lt x)

/-! ## The two duties of a map (42_actuation.md R146) -/

/-- A value between two s16 is what a duty register holding it reads as. -/
theorem toInt_ofInt_duty {n h : Half} {d : Int} (hd : n.toInt ≤ d ∧ d ≤ h.toInt) : (BitVec.ofInt 32 d).toInt = d := by
  have hn := n.le_toInt
  have hh := h.toInt_lt
  exact BitVec.toInt_ofInt_eq_self (by decide) (by omega) (by omega)

section

variable {s : State} (hlegal : Claims.pairIsLegal s) {c : F32}

include hlegal

theorem State.toInt_duties_mapDuty :
    (s.mapDuty c).dutyL.toInt = s.leftDuty c ∧ (s.mapDuty c).dutyR.toInt = s.rightDuty c := by
  rw [State.mapDuty_legal s c (s.legalPair_iff.mpr hlegal)]
  exact ⟨toInt_ofInt_duty (State.leftDuty_mem hlegal c), toInt_ofInt_duty (State.rightDuty_mem hlegal c)⟩

/-- A side that is not raised stays at NEUTRAL_SPEED. -/
theorem f2iTrunc_clampF_of_le {v : F32}
    (h : orderKey v ≤ orderKey (i2f s.neutralSpeed.toInt) ∧ isNaN v = false) :
    f2iTrunc (clampF v (i2f s.neutralSpeed.toInt) (i2f s.dutyMax.toInt)) = s.neutralSpeed.toInt := by
  have hbounds : orderKey (i2f s.neutralSpeed.toInt) ≤ orderKey (i2f s.dutyMax.toInt) := by
    rw [orderKey_i2f, orderKey_i2f]
    exact roundKey_mono Nat.one_pos Nat.one_pos (by have := hlegal.2; omega)
  rw [f2iTrunc_congr (orderKey_clampF_of_le h.2 (isNaN_of_isFinite (isFinite_i2f_half _)) h.1 hbounds)]
  exact f2iTrunc_i2f (natAbs_toInt_half_lt _)

end

/-- A side that is raised is cut at DUTY_MAX only. -/
theorem f2iTrunc_clampF_of_ge {v lo hi : F32} (h : orderKey lo ≤ orderKey v ∧ isNaN v = false) :
    f2iTrunc (clampF v lo hi) = Claims.truncated (if fgt v hi then hi else v) := by
  rw [clampF_of_ge h.2 h.1]
  exact f2iTrunc_eq _

theorem orderKey_nonneg_iff {c : F32} : 0 ≤ orderKey c ↔ sign c = false ∨ mag c = 0 := by
  rw [orderKey]
  cases sign c <;> simp

theorem orderKey_nonpos_iff {c : F32} : orderKey c ≤ 0 ↔ sign c = true ∨ mag c = 0 := by
  rw [orderKey]
  cases sign c <;> simp

/-- MAP, MAPI and LOOP map their correction under the pair they began with. -/
theorem exists_mapDuty_of_mapsCorrection {s t : State} {i : Instr} {c : F32} (hc : Claims.MapsCorrection s i c)
    (ht : exec i s = .next t) :
    ∃ u : State, t = u.mapDuty c ∧ u.neutralSpeed = s.neutralSpeed ∧ u.dutyMax = s.dutyMax := by
  obtain rfl := exec_next ht
  rcases hc with ⟨rfl, rfl⟩ | ⟨rfl, rfl⟩ | ⟨rfl, t', ht', rfl⟩
  · exact ⟨s, rfl, rfl, rfl⟩
  · exact ⟨s, rfl, rfl, rfl⟩
  · obtain rfl := exec_next ht'
    let a := s.estimate Config.weights
    let u := a.pidStep (i2f a.offset.toInt) s.dtIn
    have hloop : effect .loop s = u.mapDuty u.correction := iteration_eq _ s
    have hcorr : (effect .loop s).correction = u.correction := hloop ▸ u.mapDuty_correction _
    refine ⟨u, ?_, by simp [u, a], by simp [u, a]⟩
    rw [hcorr, hloop]

/-- Settles O46: one side gets n plus a value that is not negative, the other n plus one that is not positive. -/
theorem steeringRaisesOneSideOnly : Obligations.SteeringRaisesOneSideOnly := by
  intro s t i c hmaps hlegal hnan ht
  obtain ⟨u, rfl, hneutral, hmax⟩ := exists_mapDuty_of_mapsCorrection hmaps ht
  unfold Claims.pairIsLegal at hlegal
  rw [← hneutral, ← hmax] at hlegal ⊢
  have hn := isFinite_i2f_half u.neutralSpeed
  have hnan' : isNaN (negate c) = false := (isNaN_negate c).trans hnan
  obtain ⟨hleft, hright⟩ := State.toInt_duties_mapDuty hlegal (c := c)
  rw [hleft, hright]
  refine ⟨fun hpos => ?_, fun hneg => ?_⟩
  · have hkey := orderKey_nonneg_iff.mpr hpos
    have hkey' : orderKey (negate c) ≤ 0 := by rw [orderKey_negate]; omega
    exact ⟨f2iTrunc_clampF_of_le hlegal (orderKey_fadd_le hn hnan' hkey'),
      f2iTrunc_clampF_of_ge (orderKey_le_fadd hn hnan hkey)⟩
  · have hkey := orderKey_nonpos_iff.mpr hneg
    have hkey' : 0 ≤ orderKey (negate c) := by rw [orderKey_negate]; omega
    exact ⟨f2iTrunc_clampF_of_le hlegal (orderKey_fadd_le hn hnan hkey),
      f2iTrunc_clampF_of_ge (orderKey_le_fadd hn hnan' hkey')⟩

end Sys2Proof.Machine
